-- ==== Sys2Proof/Word.lean ====
section
/-! DEFINITION. The two word types of the hardware (spec 00_scope.md R6: BYTE and REGW are 8, PCW and ADDRW are 16). No value is ever read as signed (R7). -/

namespace Sys2Proof

/-- A byte, a data register, the status register: `u8` of R7. -/
abbrev Byte := BitVec 8

/-- A bus address, a device-local address, the program counter: `u16` of R7. -/
abbrev Addr := BitVec 16

end Sys2Proof
end

