-- ==== Sys2Proof/Syntax.lean ====
section
/-! DEFINITION. The instructions (30_encoding.md R84), one constructor per row of spec/opcode_table.json, and the parts of an opcode table entry (R82). -/

namespace Sys2Proof

/-- The three data registers that a load or a store names (10_state.md R12, R13). -/
inductive DataReg where
  | a
  | x
  | y
  deriving DecidableEq, Repr

/-- The eight flags of P, under the names of 10_state.md R16 and R17. -/
inductive Flag where
  | c
  | z
  | i
  | d
  | b4
  | b5
  | v
  | n
  deriving DecidableEq, Repr

/-- The three addressing resolvers (40_addressing_resolvers.md R101, R102, R103). -/
inductive Resolver where
  | implied
  | immediate
  | absolute
  deriving DecidableEq, Repr

/-- The three classes of opcode effect (41_loads.md R110, 42_flag_ops.md R120, 43_stores.md R130). Seven flag operations exist
(R120); the type holds the others too, for a table given as an argument (log entry 15). -/
inductive Effect where
  | load (r : DataReg)
  | flagOp (f : Flag) (b : Bool)
  | store (r : DataReg)
  deriving DecidableEq, Repr

/-- An opcode table entry (30_encoding.md R82). The empty mnemonic means "not implemented". -/
structure OpEntry where
  resolver : Resolver
  effect : Effect
  cycles : Nat
  mnemonic : String
  deriving DecidableEq, Repr

/-- The instructions, in the order of the table of 30_encoding.md R84. An immediate operand is imm8 and an
absolute operand is the 16-bit address (R83); every value of either is legal (R85). -/
inductive Instr where
  | clc
  | sec
  | cli
  | sei
  | sty (ea : Addr)
  | sta (ea : Addr)
  | stx (ea : Addr)
  | ldyImm (v : Byte)
  | ldxImm (v : Byte)
  | ldaImm (v : Byte)
  | ldyAbs (ea : Addr)
  | ldaAbs (ea : Addr)
  | ldxAbs (ea : Addr)
  | clv
  | cld
  | sed
  deriving DecidableEq, Repr

end Sys2Proof
end

