-- ==== Sys2Proof/Config.lean ====
section
/-! DEFINITION. The parameters of the hardware (00_scope.md R6) that no instruction changes, and the free values: constants with no body, so that nothing can be proved of what they are. -/

namespace Sys2Proof

/-- `UNMAPPED_READ_VALUE` (R6, 20_memory.md R47). -/
def Config.unmappedReadValue : Byte := 0x00#8

/-- `P_POWERON` (R6, 10_state.md R30). -/
def Config.pPowerOn : Byte := 0x34#8

/-- `SP_POWERON` (R6, 10_state.md R30). -/
def Config.spPowerOn : Byte := 0xFD#8

/-- `CYC_POWERON` (R6, 10_state.md R23). -/
def Config.cycPowerOn : Nat := 0

/-- `RESET_SP_DEC` (R6, 10_state.md R31). -/
def Config.resetSpDec : Byte := 3#8

/-- `RESET_VECTOR`, the address of the low byte (R6, 20_memory.md R54). -/
def Config.resetVector : Addr := 0xFFFC#16

/-- `POWERON_ZERO`, in the order of the writes (R6, 10_state.md R22). -/
def Config.powerOnZero : List Addr := [0x4017#16, 0x4015#16]

/-- `RESET_ZERO` (R6, 10_state.md R22). -/
def Config.resetZero : Addr := 0x4015#16

/-- FREE VALUE: the byte of the n-th draw, what a stub device answers (20_memory.md R53, log entry 4). -/
opaque Config.draw : Nat → Byte

/-- FREE VALUE: what the read function of external device `id` makes of its private state and an offset: the new
state and the byte (20_memory.md R41, log entry 10). -/
opaque Config.extRead : (id st : Nat) → Addr → Nat × Byte

/-- FREE VALUE: the private state the write function of external device `id` leaves (20_memory.md R41, log entry 10). -/
opaque Config.extWrite : (id st : Nat) → Addr → Byte → Nat

/-- FREE VALUES: the registers before power-on, which are unspecified (10_state.md R29, log entry 5). -/
opaque Config.offA : Byte

@[inherit_doc Config.offA] opaque Config.offX : Byte

@[inherit_doc Config.offA] opaque Config.offY : Byte

@[inherit_doc Config.offA] opaque Config.offSp : Byte

@[inherit_doc Config.offA] opaque Config.offP : Byte

@[inherit_doc Config.offA] opaque Config.offPc : Addr

@[inherit_doc Config.offA] opaque Config.offCyc : Nat

end Sys2Proof
end

