-- ==== Sys2Proof/WellFormed.lean ====
section
/-! DEFINITION. The checks of what is given to the hardware from outside: an opcode table (30_encoding.md R82, 40_addressing_resolvers.md R106), a block length (20_memory.md R52), an address range (20_memory.md R43). An `Instr` needs no check: every imm8 and every address is legal (30_encoding.md R85), and the operand types hold nothing else. -/

namespace Sys2Proof

/-- An entry with a non-empty mnemonic denotes an instruction (30_encoding.md R82). -/
def OpEntry.assigned (e : OpEntry) : Bool := e.mnemonic != ""

/-- The legal pairings of resolver and effect (40_addressing_resolvers.md R106): a load with Immediate or Absolute,
a store with Absolute, a flag operation with Implied. R106 requires a refusal for a load or a store paired otherwise; for a
flag operation paired otherwise it is the model's (log entry 12). Any flag and either value is legal in a flag operation
of a table given as an argument, also one that R120 gives no instruction: DESIGN CHOICE (log entry 15). -/
def OpEntry.wellPaired (e : OpEntry) : Bool :=
  match e.effect with
  | .load _ => e.resolver != .implied
  | .store _ => e.resolver == .absolute
  | .flagOp _ _ => e.resolver == .implied

/-- An assigned entry is well formed when it is legally paired and its cost is not zero (30_encoding.md R82). -/
def OpEntry.wellFormed (e : OpEntry) : Bool := !e.assigned || (e.wellPaired && e.cycles != 0)

/-- `1 <= N <= 65536` (20_memory.md R52). -/
def blockLengthOk (len : Nat) : Bool := decide (1 ≤ len) && decide (len ≤ 65536)

/-- A range has `low <= high`, both inclusive (20_memory.md R43). -/
def rangeOk (low high : Addr) : Bool := decide (low ≤ high)

end Sys2Proof
end

