-- ==== Sys2Proof/Decode.lean ====
section
/-! DEFINITION. The opcode bytes and the decoder (30_encoding.md R80 to R86), total on any bytes, and after it the encoder, from the same table. -/

namespace Sys2Proof

/-! ### Byte order (20_memory.md R54) -/

/-- `{hi, lo} = hi * 256 + lo` (00_scope.md R7). -/
def joinBytes (hi lo : Byte) : Addr := hi ++ lo

/-- `v[7:0]` of a 16-bit value. -/
def lowByte (a : Addr) : Byte := a.extractLsb' 0 8

/-- `v[15:8]` of a 16-bit value. -/
def highByte (a : Addr) : Byte := a.extractLsb' 8 8

/-! ### The opcode bytes (30_encoding.md R84) -/

def opCLC : Byte := 0x18#8
def opSEC : Byte := 0x38#8
def opCLI : Byte := 0x58#8
def opSEI : Byte := 0x78#8
def opSTY : Byte := 0x8C#8
def opSTA : Byte := 0x8D#8
def opSTX : Byte := 0x8E#8
def opLDYimm : Byte := 0xA0#8
def opLDXimm : Byte := 0xA2#8
def opLDAimm : Byte := 0xA9#8
def opLDYabs : Byte := 0xAC#8
def opLDAabs : Byte := 0xAD#8
def opLDXabs : Byte := 0xAE#8
def opCLV : Byte := 0xB8#8
def opCLD : Byte := 0xD8#8
def opSED : Byte := 0xF8#8

/-! ### The decoder -/

/-- What an assigned opcode says of the bytes after it: none (F1), imm8 (F2), or a 16-bit address (F3); and the
instruction those bytes make (30_encoding.md R80, R83). -/
inductive OpShape where
  | implied (i : Instr)
  | immediate (mk : Byte → Instr)
  | absolute (mk : Addr → Instr)

/-- The assigned opcodes with their formats, in the order of 30_encoding.md R84. All eight bits of the opcode select
the row (R81). No row has a zero-page form: 0x85 is unassigned (R89). -/
def opShapes : List (Byte × OpShape) :=
  [ (opCLC, .implied .clc),
    (opSEC, .implied .sec),
    (opCLI, .implied .cli),
    (opSEI, .implied .sei),
    (opSTY, .absolute .sty),
    (opSTA, .absolute .sta),
    (opSTX, .absolute .stx),
    (opLDYimm, .immediate .ldyImm),
    (opLDXimm, .immediate .ldxImm),
    (opLDAimm, .immediate .ldaImm),
    (opLDYabs, .absolute .ldyAbs),
    (opLDAabs, .absolute .ldaAbs),
    (opLDXabs, .absolute .ldxAbs),
    (opCLV, .implied .clv),
    (opCLD, .implied .cld),
    (opSED, .implied .sed) ]

/-- The lookup on the whole opcode byte; none for an unassigned opcode (30_encoding.md R81, R85). -/
def opShape (op : Byte) : Option OpShape := opShapes.lookup op

/-- Why bytes are no instruction. -/
inductive DecodeError where
  /-- The opcode is one of the 240 unassigned ones (30_encoding.md R85). -/
  | unassigned (op : Byte)
  /-- Fewer bytes were given than the opcode's format has (30_encoding.md R86). -/
  | truncated
  deriving DecidableEq, Repr

/-- What the decoder answers: an instruction with the bytes after it, or why there is none. -/
inductive Decoded where
  | instr (i : Instr) (rest : List Byte)
  | rejected (e : DecodeError)
  deriving DecidableEq, Repr

/-- The instruction at the head of a list of bytes, with the bytes after it (30_encoding.md R80, R83, R86). -/
def decode : List Byte → Decoded
  | [] => .rejected .truncated
  | op :: rest =>
    match opShape op, rest with
    | none, _ => .rejected (.unassigned op)
    | some (.implied i), rest => .instr i rest
    | some (.immediate mk), v :: rest => .instr (mk v) rest
    | some (.absolute mk), lo :: hi :: rest => .instr (mk (joinBytes hi lo)) rest
    | some _, _ => .rejected .truncated

/-- The bytes of the low `nbits` bits of `w`, lowest first, three of them: the longest instruction has three bytes
(30_encoding.md R80), and a bit above `nbits` is 0. -/
def tableWordBytes (nbits w : Nat) : List Byte :=
  let v := w % 2 ^ nbits
  [BitVec.ofNat 8 v, BitVec.ofNat 8 (v / 256), BitVec.ofNat 8 (v / 65536)]

/-- The instruction this decoder reads from a word numbered as spec/opcode_table.json numbers it: byte 0 is bits 7
to 0 and lies at the lowest address. -/
def decodeTableWord (nbits w : Nat) : Option Instr :=
  match decode (tableWordBytes nbits w) with
  | .instr i _ => some i
  | .rejected _ => none

/-! ### The encoder -/

/-- Format F3: the opcode, the low byte of the address, the high byte (30_encoding.md R80); three bytes for an address below
0x0100 too, there being no zero-page mode (R89). -/
def encodeAbs (op : Byte) (ea : Addr) : List Byte := [op, lowByte ea, highByte ea]

/-- The bytes of an instruction, lowest address first (30_encoding.md R80, R84). -/
def encode : Instr → List Byte
  | .clc => [opCLC]
  | .sec => [opSEC]
  | .cli => [opCLI]
  | .sei => [opSEI]
  | .sty ea => encodeAbs opSTY ea
  | .sta ea => encodeAbs opSTA ea
  | .stx ea => encodeAbs opSTX ea
  | .ldyImm v => [opLDYimm, v]
  | .ldxImm v => [opLDXimm, v]
  | .ldaImm v => [opLDAimm, v]
  | .ldyAbs ea => encodeAbs opLDYabs ea
  | .ldaAbs ea => encodeAbs opLDAabs ea
  | .ldxAbs ea => encodeAbs opLDXabs ea
  | .clv => [opCLV]
  | .cld => [opCLD]
  | .sed => [opSED]

end Sys2Proof
end

