-- ==== Sys2Proof/Machine/State.lean ====
section
/-! DEFINITION. The state of the machine, as plain data: the register file (10_state.md R10), the lifecycle (R27), the bus with its devices (R24, R25), the diagnostic trace (R26), and two fields of the model's own (the bus transactions and the draw counter). With it the reasons a command stops, and `State.reset`, the machine right after power-on. -/

namespace Sys2Proof.Machine

/-- The fatal faults (60_exceptions.md R150 to R153). A fatal fault is a NEXT state whose lifecycle holds it
(R160, log entry 6): no step answers `Host.Outcome.fault`, so the whole faulted state stays readable. -/
inductive Fault where
  /-- Raised by the step that fetched an unassigned opcode (R151). Safe: the spec's own fault. -/
  | unimplementedOpcode (op : Byte)
  /-- Raised at the end of a step whose table entry declares cost zero (R152). Safe: the spec's own fault; the table
  of 30_encoding.md R84 never raises it. -/
  | missingCycleCount (op : Byte)
  /-- Raised by a bus write that reaches a read-only memory block (R153): the device's name, the global address, the
  byte, and inside a step the opcode byte of the store (R160). Safe: the spec's own fault. -/
  | deviceMisuse (name : String) (addr : Addr) (val : Byte) (op : Option Byte)
  deriving DecidableEq, Repr

/-- The lifecycle states (10_state.md R27). -/
inductive Life where
  | poweredOff
  | poweredOn
  | running
  | haltedOnFault (f : Fault)
  deriving DecidableEq, Repr

/-- The reasons a step has no next state. -/
inductive Refusal where
  /-- An arm of `exec` that has no meaning yet. No arm is left so. Safe. -/
  | notModelled (mnemonic : String)
  /-- The `step` command in a lifecycle state that does not accept it, PoweredOff or HaltedOnFault: it changes nothing
  and reports `Refused` (45_execution_step.md R140, 70_reset_and_hazards.md R182, log entry 7). Raised by `step` and by
  `stepTable`. Safe: the spec's own refusal. -/
  | commandRefused (l : Life)
  /-- An entry of a table given as an argument that pairs a resolver with an effect that cannot use its result
  (40_addressing_resolvers.md R106). Raised by `stepTable` only; the table of 30_encoding.md R84 has no such entry.
  Safe: the spec's own refusal for a load or a store, the model's for a flag operation (log entry 12). -/
  | illPairedEntry (op : Byte)
  deriving DecidableEq, Repr

/-- The diagnostics (60_exceptions.md R154), the events of DIAG (10_state.md R26). -/
inductive DiagEvent where
  | unmappedRead (addr : Addr)
  | unmappedWrite (addr : Addr) (val : Byte)
  deriving DecidableEq, Repr

/-- One bus transaction (00_scope.md R2): a read with the byte it answered, a write with its byte, or a write that
a read-only block refused (20_memory.md R51). -/
inductive BusEvent where
  | read (addr : Addr) (val : Byte)
  | write (addr : Addr) (val : Byte)
  | writeFatal (addr : Addr) (val : Byte)
  deriving DecidableEq, Repr

/-- The bytes of a memory block: cells (offset, byte), offsets strictly rising, no cell equal to what an unlisted
offset reads as (`unlistedByte`). -/
abbrev Memory := List Host.Cell

/-- What a device is (20_memory.md R41). -/
inductive DeviceKind where
  /-- A memory block: the read-only flag, the length N, the bytes (R49 to R52). -/
  | block (readOnly : Bool) (len : Nat) (cells : Memory)
  /-- A stub (R53): the graphics, audio and input units and the disabled-range sentinel. It has no state. -/
  | stub
  /-- Any other device: its number and its private state (R41), acted on by `Config.extRead` and `Config.extWrite`. -/
  | external (id st : Nat)
  deriving DecidableEq, Repr

/-- A device with the name its diagnostics carry (20_memory.md R41, R52). -/
structure Device where
  name : String
  kind : DeviceKind
  deriving DecidableEq, Repr

/-- A mapping (20_memory.md R42): a device, by its place in `State.devices`, and an inclusive address range. -/
structure Mapping where
  dev : Nat
  low : Addr
  high : Addr
  deriving DecidableEq, Repr

/-- The state of the CORE. -/
structure State where
  /-- Accumulator (10_state.md R12). -/
  a : Byte
  /-- Index X (R13). -/
  x : Byte
  /-- Index Y (R13). -/
  y : Byte
  /-- Stack pointer (R14). -/
  sp : Byte
  /-- Status flags (R16, R17). -/
  p : Byte
  /-- Program counter (R15). -/
  pc : Addr
  /-- Cycle counter, unbounded (R23). -/
  cyc : Nat
  /-- Lifecycle (R27). -/
  life : Life
  /-- The system failed assembly: a registration or the making of a block answered a configuration error (20_memory.md
  R66, 60_exceptions.md R155, log entry 14). -/
  assemblyFailed : Bool
  /-- The bus mapping list, in registration order (R24). -/
  mappings : List Mapping
  /-- The devices the bus owns, with their private state (R25). -/
  devices : List Device
  /-- DIAG, oldest first (R26). -/
  diag : List DiagEvent
  /-- The model's own (log entry 9): the bus transactions made so far, newest first. -/
  trace : List BusEvent
  /-- The model's own (log entry 4): how many draws have been taken. -/
  draws : Nat
  deriving DecidableEq, Repr

/-- The mapping list of the reference instance `MAP_REF` (20_memory.md R57, log entry 2). -/
def mapRefMappings : List Mapping :=
  [ ⟨0, 0x0000#16, 0x1FFF#16⟩,
    ⟨1, 0x2000#16, 0x3FFF#16⟩,
    ⟨2, 0x4000#16, 0x4015#16⟩,
    ⟨3, 0x4016#16, 0x4017#16⟩,
    ⟨4, 0x4018#16, 0x401F#16⟩,
    ⟨5, 0x8000#16, 0xFFFF#16⟩ ]

/-- The devices of `MAP_REF` (20_memory.md R57) with `RAM_INIT` and `PRG_IMAGE` given as cells; PRG_LEN is the
0x8000 of the test vectors (95_test_vectors.md). -/
def mapRefDevices (ramInit prgImage : Memory) : List Device :=
  [ ⟨"RAM", .block false 0x0800 ramInit⟩,
    ⟨"GFX", .stub⟩,
    ⟨"AUDIO", .stub⟩,
    ⟨"INPUT", .stub⟩,
    ⟨"DISABLED", .stub⟩,
    ⟨"PRG", .block true 0x8000 prgImage⟩ ]

/-- The machine before assembly and power-on: every register unspecified (10_state.md R29), the mapping list empty
(20_memory.md R42), DIAG empty (R33). -/
def State.off : State :=
  { a := Config.offA
    x := Config.offX
    y := Config.offY
    sp := Config.offSp
    p := Config.offP
    pc := Config.offPc
    cyc := Config.offCyc
    life := .poweredOff
    assemblyFailed := false
    mappings := []
    devices := []
    diag := []
    trace := []
    draws := 0 }

/-- The machine right after `power_on` (10_state.md R30) on `MAP_REF` with every block byte at `unlistedByte`
(log entries 1, 2, 3). It is what `powerOn` answers on the assembled machine (test `test_powerOn_gives_reset`), its
four bus transactions included. -/
def State.reset : State :=
  { a := 0x00#8
    x := 0x00#8
    y := 0x00#8
    sp := Config.spPowerOn
    p := Config.pPowerOn
    pc := 0x0000#16
    cyc := Config.cycPowerOn
    life := .poweredOn
    assemblyFailed := false
    mappings := mapRefMappings
    devices := mapRefDevices [] []
    diag := []
    trace :=
      [ .read 0xFFFD#16 0x00#8,
        .read 0xFFFC#16 0x00#8,
        .write 0x4015#16 0x00#8,
        .write 0x4017#16 0x00#8 ]
    draws := 0 }

end Sys2Proof.Machine
end

