-- ==== Sys2Proof/Machine/Ops.lean ====
section
/-! DEFINITION. The named operations over the state: registers, the bytes of a memory block, the bus (20_memory.md R44 to R53), a fatal fault (60_exceptions.md R160), the end of an instruction (45_execution_step.md R145), and the placing of bytes by a loader. -/

namespace Sys2Proof.Machine

/-! ### Registers and the other fields -/

/-- `x[r]` (00_scope.md R8). -/
def State.reg (s : State) : DataReg → Byte
  | .a => s.a
  | .x => s.x
  | .y => s.y

/-- `x[r] <- v` (00_scope.md R8): the whole byte (10_state.md R12). -/
def State.setReg (s : State) (r : DataReg) (v : Byte) : State :=
  match r with
  | .a => { s with a := v }
  | .x => { s with x := v }
  | .y => { s with y := v }

/-- `P <- v`. -/
def State.setP (s : State) (v : Byte) : State := { s with p := v }

/-- `x[SP] <- v`. -/
def State.setSp (s : State) (v : Byte) : State := { s with sp := v }

/-- `pc <- t`. -/
def State.setPc (s : State) (t : Addr) : State := { s with pc := t }

/-- `cyc <- cyc + n`, the addition of natural numbers (45_execution_step.md R145). -/
def State.addCycles (s : State) (n : Nat) : State := { s with cyc := s.cyc + n }

/-- `LIFE <- l`. -/
def State.setLife (s : State) (l : Life) : State := { s with life := l }

/-- Record that the system failed assembly (60_exceptions.md R155). -/
def State.failAssembly (s : State) : State := { s with assemblyFailed := true }

/-- `diag(e)`: append to DIAG (00_scope.md R8, 10_state.md R26). -/
def State.logDiag (s : State) (e : DiagEvent) : State := { s with diag := s.diag ++ [e] }

/-- Record a bus transaction in the model's own trace (log entry 9). -/
def State.note (s : State) (e : BusEvent) : State := { s with trace := e :: s.trace }

/-- Take the next draw (log entry 4). -/
def State.nextDraw (s : State) : State := { s with draws := s.draws + 1 }

/-- Put `d` in the place of device `i`. -/
def State.setDevice (s : State) (i : Nat) (d : Device) : State :=
  { s with devices := s.devices.set i d }

/-- The lifecycle states in which `step` and `reset` are accepted (45_execution_step.md R140, 70_reset_and_hazards.md R182). -/
def Life.accepts : Life → Bool
  | .poweredOff => false
  | .poweredOn => true
  | .running => true
  | .haltedOnFault _ => false

/-! ### The bytes of a memory block -/

/-- What an offset that no cell lists reads as (log entry 1). -/
def unlistedByte : Byte := 0x00#8

/-- The byte at offset `k`. -/
def Memory.read : Memory → Nat → Byte
  | [], _ => unlistedByte
  | (j, v) :: m, k => if j = k then v else Memory.read m k

/-- A cell list with `(k, v)` in front, or without it where `v` is what an unlisted offset reads as. -/
def Memory.cell (k : Nat) (v : Byte) (m : Memory) : Memory :=
  if v = unlistedByte then m else (k, v) :: m

/-- The bytes with `v` at offset `k`, in canonical form again. -/
def Memory.write : Memory → Nat → Byte → Memory
  | [], k, v => Memory.cell k v []
  | (j, w) :: m, k, v =>
    if k < j then Memory.cell k v ((j, w) :: m)
    else if k = j then Memory.cell k v m
    else (j, w) :: Memory.write m k v

/-- The canonical form: offsets strictly rising, no cell equal to what an unlisted offset reads as. -/
def Memory.wf : Memory → Bool
  | [] => true
  | (j, v) :: m => v != unlistedByte && m.all (fun c => decide (j < c.1)) && Memory.wf m

/-! ### The bus -/

/-- A mapping owns the addresses `low <= a <= high` (20_memory.md R42). -/
def Mapping.owns (m : Mapping) (a : Addr) : Bool := decide (m.low ≤ a) && decide (a ≤ m.high)

/-- `lookup(a)`: the first mapping in registration order that owns `a` (20_memory.md R44). -/
def State.lookup (s : State) (a : Addr) : Option Mapping := s.mappings.find? (·.owns a)

/-- The device that owns `a`, its place, and the device-local address `a - low` (20_memory.md R45). A mapping whose
device does not exist, which no assembly makes, owns nothing (log entry 8). -/
def State.locate (s : State) (a : Addr) : Option (Nat × Device × Addr) :=
  match s.lookup a with
  | none => none
  | some m =>
    match s.devices[m.dev]? with
    | none => none
    | some d => some (m.dev, d, a - m.low)

/-- A device's read at a device-local address: the byte `mem[k mod N]` of a block (20_memory.md R49), a draw of a stub
(R53), the read function of any other device (R41). -/
def State.readDevice (s : State) (i : Nat) (d : Device) (off : Addr) : State × Byte :=
  match d.kind with
  | .block _ len cells => (s, Memory.read cells (off.toNat % len))
  | .stub => (s.nextDraw, Config.draw s.draws)
  | .external id st =>
    (s.setDevice i ⟨d.name, .external id (Config.extRead id st off).1⟩, (Config.extRead id st off).2)

/-- `MemRead(a, 1)`: one bus read (20_memory.md R45, R47). It raises no fault. -/
def memRead (s : State) (a : Addr) : State × Byte :=
  match s.locate a with
  | none => ((s.logDiag (.unmappedRead a)).note (.read a Config.unmappedReadValue), Config.unmappedReadValue)
  | some (i, d, off) =>
    let r := s.readDevice i d off
    (r.1.note (.read a r.2), r.2)

/-- The end of a sequence of effects: all done, or ended at a `raise` (00_scope.md R8), each with the state there. -/
inductive Effected where
  | done (s : State)
  | raised (f : Fault) (s : State)
  deriving DecidableEq, Repr

/-- `MemWrite(a, 1, v)`: one bus write (20_memory.md R46, R48, R50, R51, R53). `op` is the opcode byte of the
step that makes it, which the fault carries (60_exceptions.md R160). -/
def memWrite (op : Option Byte) (s : State) (a : Addr) (v : Byte) : Effected :=
  match s.locate a with
  | none => .done ((s.logDiag (.unmappedWrite a v)).note (.write a v))
  | some (i, d, off) =>
    match d.kind with
    | .block true _ _ => .raised (.deviceMisuse d.name a v op) (s.note (.writeFatal a v))
    | .block false len cells =>
      .done ((s.setDevice i ⟨d.name, .block false len (Memory.write cells (off.toNat % len) v)⟩).note (.write a v))
    | .stub => .done (s.note (.write a v))
    | .external id st => .done ((s.setDevice i ⟨d.name, .external id (Config.extWrite id st off v)⟩).note (.write a v))

/-! ### Looking at memory from outside the bus (70_reset_and_hazards.md R185): no event, no draw -/

/-- The block byte that global address `a` reaches, as (device, offset `(a - low) mod N`) (20_memory.md R63); none
where no memory block owns `a`. -/
def State.cellOf (s : State) (a : Addr) : Option (Nat × Nat) :=
  match s.locate a with
  | some (i, ⟨_, .block _ len _⟩, off) => some (i, off.toNat % len)
  | _ => none

/-- Byte `c.2` of memory block `c.1`; none where device `c.1` is no memory block. -/
def State.byteAt (s : State) (c : Nat × Nat) : Option Byte :=
  match s.devices[c.1]? with
  | some ⟨_, .block _ _ cells⟩ => some (Memory.read cells c.2)
  | _ => none

/-- The memory byte at global address `a`; none where no memory block owns `a`. -/
def State.peek (s : State) (a : Addr) : Option Byte := (s.cellOf a).bind s.byteAt

/-- A read-only memory block owns `a`, so that a bus write there is fatal (20_memory.md R51). -/
def State.readOnlyAt (s : State) (a : Addr) : Bool :=
  match s.locate a with
  | some (_, ⟨_, .block true _ _⟩, _) => true
  | _ => false

/-- A loader's placing of a byte in the memory block that owns `a`, read-only or not (70_reset_and_hazards.md R183):
no bus event. Where no memory block owns `a`, nothing is placed. -/
def State.poke (s : State) (a : Addr) (v : Byte) : State :=
  match s.locate a with
  | some (i, ⟨name, .block ro len cells⟩, off) =>
    s.setDevice i ⟨name, .block ro len (Memory.write cells (off.toNat % len) v)⟩
  | _ => s

/-- A loader's placing of bytes at ascending addresses, modulo 65536. -/
def State.pokeBytes (s : State) (a : Addr) : List Byte → State
  | [] => s
  | v :: vs => (s.poke a v).pokeBytes (a + 1#16) vs

/-! ### A fatal fault, and the end of an instruction -/

/-- Fault entry (60_exceptions.md R160): LIFE becomes HaltedOnFault with the fault; nothing is saved, pushed, loaded
or undone. There is no return from it (R161). -/
def State.halt (s : State) (f : Fault) : State := s.setLife (.haltedOnFault f)

/-- The end of the step of 45_execution_step.md R141: an effect that raised halts there (R144); else the declared cost
is added (R145), and a declared cost of zero halts after that (R143). -/
def conclude (op : Byte) (cost : Nat) : Effected → State
  | .raised f s => s.halt f
  | .done s => if cost = 0 then (s.addCycles cost).halt (.missingCycleCount op) else s.addCycles cost

/-- The declared cycle costs (30_encoding.md R88). -/
def cyclesImplied : Nat := 2
@[inherit_doc cyclesImplied] def cyclesImmediate : Nat := 2
@[inherit_doc cyclesImplied] def cyclesAbsolute : Nat := 4

end Sys2Proof.Machine
end

