-- ==== Sys2Proof/Machine/Flags.lean ====
section
/-! DEFINITION. The status register P: the places of the flags (10_state.md R17), setting and clearing one flag (42_flag_ops.md R120), and the flags a load computes (41_loads.md R110). -/

namespace Sys2Proof.Machine

/-- The bit number of a flag (10_state.md R17). -/
def flagBit : Flag → Nat
  | .c => 0
  | .z => 1
  | .i => 2
  | .d => 3
  | .b4 => 4
  | .b5 => 5
  | .v => 6
  | .n => 7

/-- The mask of a flag (10_state.md R17). -/
def flagMask (f : Flag) : Byte := 1#8 <<< flagBit f

/-- `P.f` of a status byte (00_scope.md R8). -/
def getFlag (f : Flag) (p : Byte) : Bool := p.getLsbD (flagBit f)

/-- `P.f <- b`: `P or mask(f)` for a set, `P and (0xFF - mask(f))` for a clear (42_flag_ops.md R120). -/
def putFlag (f : Flag) (b : Bool) (p : Byte) : Byte := if b then p ||| flagMask f else p &&& (0xFF#8 - flagMask f)

/-- `P.f` of a state. -/
def State.flag (s : State) (f : Flag) : Bool := getFlag f s.p

/-- `P.f <- b` in a state; no other bit changes (10_state.md R20). -/
def State.setFlag (s : State) (f : Flag) (b : Bool) : State := s.setP (putFlag f b s.p)

/-- The flags a load leaves: Z is 1 iff the byte is 0x00, N is bit 7 of the byte (41_loads.md R110). -/
def State.setLoadFlags (s : State) (v : Byte) : State :=
  (s.setFlag .z (v == 0x00#8)).setFlag .n (v.getLsbD 7)

end Sys2Proof.Machine
end

