-- ==== Sys2Proof/Machine/Operands.lean ====
section
/-! DEFINITION. Fetching an instruction's bytes at PC (45_execution_step.md R141, 40_addressing_resolvers.md R104) and the three addressing resolvers (R100 to R103). -/

namespace Sys2Proof.Machine

/-- `v <- MemRead(pc, 1); pc <- pc +16 1`. -/
def fetchByte (s : State) : State × Byte :=
  let r := memRead s s.pc
  (r.1.setPc (s.pc + 1#16), r.2)

/-- `n` bytes at PC, one after the other. -/
def fetchBytes : Nat → State → State × List Byte
  | 0, s => (s, [])
  | n + 1, s =>
    let r := fetchByte s
    let t := fetchBytes n r.1
    (t.1, r.2 :: t.2)

/-- The address operand of format F3: the low byte first, then the high byte (20_memory.md R54). -/
def fetchAddr (s : State) : State × Addr :=
  let lo := fetchByte s
  let hi := fetchByte lo.1
  (hi.1, joinBytes hi.2 lo.2)

/-- What a resolver returns: the state after it, the effective address and the fetched byte (R100). -/
abbrev Resolved := State × Addr × Byte

/-- Implied (R101): no bus access, PC untouched, (0, 0). -/
def resolveImplied (s : State) : Resolved := (s, 0x0000#16, 0x00#8)

/-- Immediate (R102): one read at PC, PC advanced by one, address 0. -/
def resolveImmediate (s : State) : Resolved :=
  let r := fetchByte s
  (r.1, 0x0000#16, r.2)

/-- Absolute (R103): the address operand, PC advanced by two, then the pre-read of the effective address, which is
made whatever effect follows. -/
def resolveAbsolute (s : State) : Resolved :=
  let r := fetchAddr s
  let v := memRead r.1 r.2
  (v.1, r.2, v.2)

/-- The resolver of a table entry. -/
def resolve : Resolver → State → Resolved
  | .implied => resolveImplied
  | .immediate => resolveImmediate
  | .absolute => resolveAbsolute

/-- A fetched instruction with the state after its last instruction byte was read, or an unassigned opcode byte with
the state after that one byte (45_execution_step.md R142). -/
inductive Fetched where
  | instr (i : Instr) (s : State)
  | unassigned (op : Byte) (s : State)
  deriving DecidableEq, Repr

/-- Read one instruction at PC: the opcode byte, then the operand bytes its format has (30_encoding.md R80, R86). -/
def fetchInstr (s : State) : Fetched :=
  let r := fetchByte s
  match opShape r.2 with
  | none => .unassigned r.2 r.1
  | some (.implied i) => .instr i r.1
  | some (.immediate mk) =>
    let v := fetchByte r.1
    .instr (mk v.2) v.1
  | some (.absolute mk) =>
    let ea := fetchAddr r.1
    .instr (mk ea.2) ea.1

end Sys2Proof.Machine
end

