-- ==== Sys2Proof/Machine/Effects.lean ====
section
/-! DEFINITION. The three opcode effects (41_loads.md R110, 42_flag_ops.md R120, 43_stores.md R130) and, over them, the whole of an instruction of each class after its bytes have been read. -/

namespace Sys2Proof.Machine

/-- `load(r, val)` (41_loads.md R110). -/
def loadEffect (r : DataReg) (v : Byte) (s : State) : Effected := .done ((s.setReg r v).setLoadFlags v)

/-- `flagop(f, b)` (42_flag_ops.md R120). -/
def flagEffect (f : Flag) (b : Bool) (s : State) : Effected := .done (s.setFlag f b)

/-- `store(r, ea)` of the instruction with opcode `op` (43_stores.md R130). -/
def storeEffect (op : Byte) (r : DataReg) (ea : Addr) (s : State) : Effected := memWrite (some op) s ea (s.reg r)

/-- `e.effect(ea, val)` (45_execution_step.md R141): an effect discards what it does not use
(40_addressing_resolvers.md R100). -/
def applyEffect (op : Byte) (e : Effect) (ea : Addr) (v : Byte) (s : State) : Effected :=
  match e with
  | .load r => loadEffect r v s
  | .flagOp f b => flagEffect f b s
  | .store r => storeEffect op r ea s

/-- A load whose operand byte has been fetched. -/
def loadImmediate (op : Byte) (r : DataReg) (v : Byte) (s : State) : Host.Outcome State Fault Refusal :=
  .next (conclude op cyclesImmediate (loadEffect r v s))

/-- A load whose address has been fetched: the pre-read gives the byte (40_addressing_resolvers.md R103). -/
def loadAbsolute (op : Byte) (r : DataReg) (ea : Addr) (s : State) : Host.Outcome State Fault Refusal :=
  let v := memRead s ea
  .next (conclude op cyclesAbsolute (loadEffect r v.2 v.1))

/-- A store whose address has been fetched: the pre-read is made and its byte discarded (43_stores.md R130). -/
def storeAbsolute (op : Byte) (r : DataReg) (ea : Addr) (s : State) : Host.Outcome State Fault Refusal :=
  .next (conclude op cyclesAbsolute (storeEffect op r ea (memRead s ea).1))

/-- A flag operation. -/
def flagImplied (op : Byte) (f : Flag) (b : Bool) (s : State) : Host.Outcome State Fault Refusal :=
  .next (conclude op cyclesImplied (flagEffect f b s))

end Sys2Proof.Machine
end

