-- ==== Sys2Proof/Machine/FlagOps.lean ====
section
/-! DEFINITION. The flag operations (42_flag_ops.md). Each meaning runs after the opcode byte has been read and PC advanced past it (log entry 11). -/

namespace Sys2Proof.Machine

/-- CLC (R121). -/
def execClc (s : State) : Host.Outcome State Fault Refusal := flagImplied opCLC .c false s

/-- SEC (R122). -/
def execSec (s : State) : Host.Outcome State Fault Refusal := flagImplied opSEC .c true s

/-- CLI (R123). -/
def execCli (s : State) : Host.Outcome State Fault Refusal := flagImplied opCLI .i false s

/-- SEI (R124). -/
def execSei (s : State) : Host.Outcome State Fault Refusal := flagImplied opSEI .i true s

/-- CLV (R125). -/
def execClv (s : State) : Host.Outcome State Fault Refusal := flagImplied opCLV .v false s

/-- CLD (R126). -/
def execCld (s : State) : Host.Outcome State Fault Refusal := flagImplied opCLD .d false s

/-- SED (R127). -/
def execSed (s : State) : Host.Outcome State Fault Refusal := flagImplied opSED .d true s

end Sys2Proof.Machine
end

