-- ==== Sys2Proof/Machine/Loads.lean ====
section
/-! DEFINITION. The loads (41_loads.md). Each meaning runs after the instruction's bytes have been read and PC advanced past them (log entry 11). -/

namespace Sys2Proof.Machine

/-- LDA immediate (R111). -/
def execLdaImm (v : Byte) (s : State) : Host.Outcome State Fault Refusal := loadImmediate opLDAimm .a v s

/-- LDX immediate (R113). -/
def execLdxImm (v : Byte) (s : State) : Host.Outcome State Fault Refusal := loadImmediate opLDXimm .x v s

/-- LDY immediate (R115). -/
def execLdyImm (v : Byte) (s : State) : Host.Outcome State Fault Refusal := loadImmediate opLDYimm .y v s

/-- LDA absolute (R112). -/
def execLdaAbs (ea : Addr) (s : State) : Host.Outcome State Fault Refusal := loadAbsolute opLDAabs .a ea s

/-- LDX absolute (R114). -/
def execLdxAbs (ea : Addr) (s : State) : Host.Outcome State Fault Refusal := loadAbsolute opLDXabs .x ea s

/-- LDY absolute (R116). -/
def execLdyAbs (ea : Addr) (s : State) : Host.Outcome State Fault Refusal := loadAbsolute opLDYabs .y ea s

end Sys2Proof.Machine
end

