-- ==== Sys2Proof/Machine/Stores.lean ====
section
/-! DEFINITION. The stores (43_stores.md). Each meaning runs after the instruction's bytes have been read and PC advanced past them (log entry 11); a store into a read-only block answers the halted state (R130). -/

namespace Sys2Proof.Machine

/-- STA absolute (R131). -/
def execSta (ea : Addr) (s : State) : Host.Outcome State Fault Refusal := storeAbsolute opSTA .a ea s

/-- STX absolute (R132). -/
def execStx (ea : Addr) (s : State) : Host.Outcome State Fault Refusal := storeAbsolute opSTX .x ea s

/-- STY absolute (R133). -/
def execSty (ea : Addr) (s : State) : Host.Outcome State Fault Refusal := storeAbsolute opSTY .y ea s

end Sys2Proof.Machine
end

