-- ==== Sys2Proof/Machine/Dispatch.lean ====
section
/-! DEFINITION. The meaning of each instruction, one arm per constructor of Instr. -/

namespace Sys2Proof.Machine

/-- What an instruction does once its bytes have been read and PC advanced past them (log entry 11). -/
def exec (i : Instr) (s : State) : Host.Outcome State Fault Refusal :=
  match i with
  | .clc => Sys2Proof.Machine.execClc s
  | .sec => Sys2Proof.Machine.execSec s
  | .cli => Sys2Proof.Machine.execCli s
  | .sei => Sys2Proof.Machine.execSei s
  | .sty ea => Sys2Proof.Machine.execSty ea s
  | .sta ea => Sys2Proof.Machine.execSta ea s
  | .stx ea => Sys2Proof.Machine.execStx ea s
  | .ldyImm v => Sys2Proof.Machine.execLdyImm v s
  | .ldxImm v => Sys2Proof.Machine.execLdxImm v s
  | .ldaImm v => Sys2Proof.Machine.execLdaImm v s
  | .ldyAbs ea => Sys2Proof.Machine.execLdyAbs ea s
  | .ldaAbs ea => Sys2Proof.Machine.execLdaAbs ea s
  | .ldxAbs ea => Sys2Proof.Machine.execLdxAbs ea s
  | .clv => Sys2Proof.Machine.execClv s
  | .cld => Sys2Proof.Machine.execCld s
  | .sed => Sys2Proof.Machine.execSed s

end Sys2Proof.Machine
end

