-- ==== Sys2Proof/Machine/Step.lean ====
section
/-! DEFINITION. The `step` command (45_execution_step.md R140, R141): accept, fetch, run. And the placing of an instruction where step fetches next. -/

namespace Sys2Proof.Machine

/-- Run what was fetched: an instruction by `exec`, an unassigned opcode by `UnimplementedOpcode` (R142). -/
def runFetched : Fetched → Host.Outcome State Fault Refusal
  | .instr i s => exec i s
  | .unassigned op s => .next (s.halt (.unimplementedOpcode op))

/-- One step. Accepted in PoweredOn and Running, it first sets LIFE to Running (R140); in any other lifecycle state it
is refused. A fatal fault is a next state with LIFE HaltedOnFault (60_exceptions.md R160, log entry 6). -/
def step (s : State) : Host.Outcome State Fault Refusal :=
  if s.life.accepts then runFetched (fetchInstr (s.setLife .running)) else .refused (.commandRefused s.life)

/-- `s` with the instruction `w` placed at PC (log entry 3): its three bytes in the memory block that owns each
address, a read-only block too, as the loader places the cartridge's image (70_reset_and_hazards.md R183). -/
def State.withFetchWord (s : State) (nbits w : Nat) : State := s.pokeBytes s.pc (tableWordBytes nbits w)

end Sys2Proof.Machine
end

