-- ==== Sys2Proof/Machine/Commands.lean ====
section
/-! DEFINITION. The host's commands (00_scope.md R5, 70_reset_and_hazards.md R182, R185): assembling the system, `power_on`, `reset`, `step`; what each answers; and the kinds of fault told apart (60_exceptions.md R150, R156). -/

namespace Sys2Proof.Machine

/-! ### Kinds and answers -/

/-- The eight kinds (60_exceptions.md R150, R156). -/
inductive FaultKind where
  | configOverlap
  | configInvalidRange
  | configInvalidBlockLength
  | unmappedRead
  | unmappedWrite
  | unimplementedOpcode
  | missingCycleCount
  | deviceMisuse
  deriving DecidableEq, Repr

/-- A configuration error (60_exceptions.md R155), with what R150 says it carries. -/
inductive ConfigError where
  | overlap (conflicting : String)
  | invalidRange (low high : Addr)
  | invalidBlockLength (len : Nat)
  deriving DecidableEq, Repr

/-- The kind of a configuration error. -/
def ConfigError.kind : ConfigError → FaultKind
  | .overlap _ => .configOverlap
  | .invalidRange _ _ => .configInvalidRange
  | .invalidBlockLength _ => .configInvalidBlockLength

/-- The kind of a diagnostic. -/
def DiagEvent.kind : DiagEvent → FaultKind
  | .unmappedRead _ => .unmappedRead
  | .unmappedWrite _ _ => .unmappedWrite

/-- The kind of a fatal fault. -/
def Fault.kind : Fault → FaultKind
  | .unimplementedOpcode _ => .unimplementedOpcode
  | .missingCycleCount _ => .missingCycleCount
  | .deviceMisuse _ _ _ _ => .deviceMisuse

/-- The kinds that move LIFE to HaltedOnFault (60_exceptions.md R150, last column). -/
def FaultKind.halts : FaultKind → Bool
  | .unimplementedOpcode => true
  | .missingCycleCount => true
  | .deviceMisuse => true
  | _ => false

/-- What a command reports to the host (70_reset_and_hazards.md R185). -/
inductive Reply where
  | ok
  | refused
  | configError (e : ConfigError)
  | fault (f : Fault)
  deriving DecidableEq, Repr

/-- A command's result: the state after it, the report, and the diagnostics it appended (70_reset_and_hazards.md R185,
60_exceptions.md R154). -/
structure CommandResult where
  state : State
  reply : Reply
  events : List DiagEvent
  deriving DecidableEq, Repr

/-- The result of a command that took `s` to `t`. -/
def commandResult (s t : State) (r : Reply) : CommandResult := ⟨t, r, t.diag.drop s.diag.length⟩

/-- The result of a command not accepted: nothing changes (70_reset_and_hazards.md R182, log entry 7). -/
def refuse (s : State) : CommandResult := commandResult s s .refused

/-- The result of a command whose effects ended as `e` says: the state, or the halt at its raise (60_exceptions.md R160). -/
def finishCommand (s : State) : Effected → CommandResult
  | .done t => commandResult s t .ok
  | .raised f t => commandResult s (t.halt f) (.fault f)

/-! ### Assembly (20_memory.md R43, R52; 70_reset_and_hazards.md R183), accepted in PoweredOff only -/

/-- The result of an assembly command that failed (60_exceptions.md R155): the error is reported at once, the mapping list
and the devices stay, and the failure is recorded, which is fatal to startup (20_memory.md R66, log entry 14). -/
def rejectAssembly (s : State) (e : ConfigError) : CommandResult := commandResult s s.failAssembly (.configError e)

/-- A block's bytes from a loader's list of (offset, byte), later entries over earlier ones, offsets modulo N; a byte not
listed is `unlistedByte` (log entries 1, 13). -/
def loadCells (len : Nat) : List Host.Cell → Memory → Memory
  | [], m => m
  | (k, v) :: rest, m => loadCells len rest (Memory.write m (k % len) v)

/-- Make a device, which no mapping reaches yet (log entry 13). -/
def makeDevice (s : State) (d : Device) : CommandResult :=
  if s.life = .poweredOff then commandResult s { s with devices := s.devices ++ [d] } .ok else refuse s

/-- Make a memory block; a length outside 1..65536 is `ConfigInvalidBlockLength` (20_memory.md R52). -/
def makeBlock (s : State) (name : String) (readOnly : Bool) (len : Nat) (init : List Host.Cell) : CommandResult :=
  if s.life = .poweredOff ∧ blockLengthOk len = false then rejectAssembly s (.invalidBlockLength len)
  else makeDevice s ⟨name, .block readOnly len (loadCells len init [])⟩

/-- Two inclusive ranges intersect (20_memory.md R43). -/
def Mapping.intersects (m : Mapping) (low high : Addr) : Bool := decide (low ≤ m.high) && decide (m.low ≤ high)

/-- The name of a mapping's device. -/
def State.deviceName (s : State) (m : Mapping) : String :=
  match s.devices[m.dev]? with
  | some d => d.name
  | none => ""

/-- `add_device(dev, low, high)` (20_memory.md R43), `dev` being the place of a device already made. A place that holds no
device is refused (log entry 8). -/
def addDevice (s : State) (dev : Nat) (low high : Addr) : CommandResult :=
  if s.life = .poweredOff ∧ dev < s.devices.length then
    if rangeOk low high then
      match s.mappings.find? (·.intersects low high) with
      | some m => rejectAssembly s (.overlap (s.deviceName m))
      | none => commandResult s { s with mappings := s.mappings ++ [⟨dev, low, high⟩] } .ok
    else rejectAssembly s (.invalidRange low high)
  else refuse s

/-! ### Power-on and reset -/

/-- Bus writes of 0x00, in order, until one raises (10_state.md R22). -/
def zeroAll (s : State) : List Addr → Effected
  | [] => .done s
  | a :: as =>
    match memWrite none s a 0x00#8 with
    | .done t => zeroAll t as
    | .raised f t => .raised f t

/-- `pc <- {hi, lo}` from the reset vector, the low byte read first (20_memory.md R54). -/
def loadVector (s : State) : State :=
  let lo := memRead s Config.resetVector
  let hi := memRead lo.1 (Config.resetVector + 1#16)
  hi.1.setPc (joinBytes hi.2 lo.2)

/-- Apply `f` to the state of effects that did not raise. -/
def Effected.andThen (e : Effected) (f : State → State) : Effected :=
  match e with
  | .done s => .done (f s)
  | .raised x s => .raised x s

/-- The register values of power-on (70_reset_and_hazards.md R180, 10_state.md R30). -/
def powerOnRegisters (s : State) : State :=
  { s with a := 0x00#8, x := 0x00#8, y := 0x00#8, p := Config.pPowerOn, sp := Config.spPowerOn, cyc := Config.cycPowerOn }

/-- `power_on` (70_reset_and_hazards.md R180), accepted in PoweredOff (R182) where no assembly command failed: a system that
failed assembly is never powered on (20_memory.md R66, 60_exceptions.md R155, log entry 14). -/
def powerOn (s : State) : CommandResult :=
  if s.life = .poweredOff ∧ s.assemblyFailed = false then
    finishCommand s
      ((zeroAll (powerOnRegisters s) Config.powerOnZero).andThen fun t => (loadVector t).setLife .poweredOn)
  else refuse s

/-- The register values of reset: SP down by 3 modulo 256, bit I of P set (70_reset_and_hazards.md R181). -/
def resetRegisters (s : State) : State := (s.setSp (s.sp - Config.resetSpDec)).setFlag .i true

/-- `reset`, the soft restart (70_reset_and_hazards.md R181): LIFE stays as it is unless the write faults. -/
def softReset (s : State) : CommandResult :=
  if s.life.accepts then finishCommand s ((zeroAll (resetRegisters s) [Config.resetZero]).andThen loadVector)
  else refuse s

/-! ### `step` as a command, and all commands together -/

/-- What an accepted step reports: its fatal fault, or Ok (45_execution_step.md R144). -/
def Life.reply : Life → Reply
  | .haltedOnFault f => .fault f
  | _ => .ok

/-- `step` with its report (45_execution_step.md R140, R144). -/
def stepCommand (s : State) : CommandResult :=
  match step s with
  | .next t => commandResult s t t.life.reply
  | .fault _ => refuse s
  | .refused _ => refuse s

/-- The host's commands (00_scope.md R5; making the devices belongs to assembly, 70_reset_and_hazards.md R183). -/
inductive HostCommand where
  | makeBlock (name : String) (readOnly : Bool) (len : Nat) (init : List Host.Cell)
  | makeStub (name : String)
  | makeExternal (name : String) (id st : Nat)
  | addDevice (dev : Nat) (low high : Addr)
  | powerOn
  | reset
  | step
  deriving DecidableEq, Repr

/-- Run one command. -/
def runCommand (c : HostCommand) (s : State) : CommandResult :=
  match c with
  | .makeBlock name ro len init => makeBlock s name ro len init
  | .makeStub name => makeDevice s ⟨name, .stub⟩
  | .makeExternal name id st => makeDevice s ⟨name, .external id st⟩
  | .addDevice dev low high => addDevice s dev low high
  | .powerOn => powerOn s
  | .reset => softReset s
  | .step => stepCommand s

/-- A host's read through the bus, a bus read like any other (70_reset_and_hazards.md R185). -/
def hostRead (s : State) (a : Addr) : State × Byte := memRead s a

/-- The assembly of the reference instance `MAP_REF` (20_memory.md R57) with a loader's `RAM_INIT` and `PRG_IMAGE`. -/
def mapRefAssembly (ramInit prgImage : List Host.Cell) : List HostCommand :=
  [ .makeBlock "RAM" false 0x0800 ramInit,
    .makeStub "GFX",
    .makeStub "AUDIO",
    .makeStub "INPUT",
    .makeStub "DISABLED",
    .makeBlock "PRG" true 0x8000 prgImage,
    .addDevice 0 0x0000#16 0x1FFF#16,
    .addDevice 1 0x2000#16 0x3FFF#16,
    .addDevice 2 0x4000#16 0x4015#16,
    .addDevice 3 0x4016#16 0x4017#16,
    .addDevice 4 0x4018#16 0x401F#16,
    .addDevice 5 0x8000#16 0xFFFF#16 ]

/-- The state after a list of commands. -/
def runCommands (cs : List HostCommand) (s : State) : State := cs.foldl (fun t c => (runCommand c t).state) s

end Sys2Proof.Machine
end

