-- ==== Sys2Proof/Machine/Table.lean ====
section
/-! DEFINITION. The opcode table (30_encoding.md R82, R84) and the step written over a table given as an argument (45_execution_step.md R141 word for word; 40_addressing_resolvers.md R106). The machine's own `step` decodes first; that the two agree on the table of R84 is a statement. -/

namespace Sys2Proof.Machine

/-- The assigned entries, in the order of 30_encoding.md R84. -/
def opRows : List (Byte × OpEntry) :=
  [ (opCLC, ⟨.implied, .flagOp .c false, cyclesImplied, "CLC"⟩),
    (opSEC, ⟨.implied, .flagOp .c true, cyclesImplied, "SEC"⟩),
    (opCLI, ⟨.implied, .flagOp .i false, cyclesImplied, "CLI"⟩),
    (opSEI, ⟨.implied, .flagOp .i true, cyclesImplied, "SEI"⟩),
    (opSTY, ⟨.absolute, .store .y, cyclesAbsolute, "STY"⟩),
    (opSTA, ⟨.absolute, .store .a, cyclesAbsolute, "STA"⟩),
    (opSTX, ⟨.absolute, .store .x, cyclesAbsolute, "STX"⟩),
    (opLDYimm, ⟨.immediate, .load .y, cyclesImmediate, "LDY"⟩),
    (opLDXimm, ⟨.immediate, .load .x, cyclesImmediate, "LDX"⟩),
    (opLDAimm, ⟨.immediate, .load .a, cyclesImmediate, "LDA"⟩),
    (opLDYabs, ⟨.absolute, .load .y, cyclesAbsolute, "LDY"⟩),
    (opLDAabs, ⟨.absolute, .load .a, cyclesAbsolute, "LDA"⟩),
    (opLDXabs, ⟨.absolute, .load .x, cyclesAbsolute, "LDX"⟩),
    (opCLV, ⟨.implied, .flagOp .v false, cyclesImplied, "CLV"⟩),
    (opCLD, ⟨.implied, .flagOp .d false, cyclesImplied, "CLD"⟩),
    (opSED, ⟨.implied, .flagOp .d true, cyclesImplied, "SED"⟩) ]

/-- An entry with the empty mnemonic (30_encoding.md R82); its other parts are never used. -/
def unassignedEntry : OpEntry := ⟨.implied, .flagOp .c false, 0, ""⟩

/-- `OPTABLE` (00_scope.md R6): the 256 entries, as a function of the opcode byte (30_encoding.md R81). -/
def opTable (op : Byte) : OpEntry := (opRows.lookup op).getD unassignedEntry

/-- The rest of a step once the opcode `op` has been read and its assigned, legally paired entry `e` found
(45_execution_step.md R141): the resolver, the effect, the cost, the zero-cost check (R143). -/
def runEntry (op : Byte) (e : OpEntry) (s : State) : State :=
  let r := resolve e.resolver s
  conclude op e.cycles (applyEffect op e.effect r.2.1 r.2.2 r.1)

/-- One step over the table `table` (45_execution_step.md R141, R142, R143; acceptance by R140). An entry that pairs a
resolver with an effect that cannot use it is refused (40_addressing_resolvers.md R106, log entry 12). -/
def stepTable (table : Byte → OpEntry) (s : State) : Host.Outcome State Fault Refusal :=
  if s.life.accepts then
    let r := fetchByte (s.setLife .running)
    let e := table r.2
    if e.assigned then
      if e.wellPaired then .next (runEntry r.2 e r.1) else .refused (.illPairedEntry r.2)
    else .next (r.1.halt (.unimplementedOpcode r.2))
  else .refused (.commandRefused s.life)

end Sys2Proof.Machine
end

