-- ==== Sys2Proof/Safety.lean ====
section
/-! DEFINITION. What counts as a sound state and a safe run: the bus as assembly leaves it (20_memory.md R43, R52, R66), the memory in canonical form, and a lifecycle that is not halted (60_exceptions.md R161); and the words in which statements say what an instruction changes and what it leaves. -/

namespace Sys2Proof.Machine

/-! ### Sound states -/

/-- A device is sound: a block has a legal length (20_memory.md R52), canonical cells, and no cell outside its length. -/
def Device.wf (d : Device) : Bool :=
  match d.kind with
  | .block _ len cells => blockLengthOk len && Memory.wf cells && cells.all (fun c => decide (c.1 < len))
  | .stub => true
  | .external _ _ => true

/-- A mapping is sound among `n` devices: its range is legal and its device exists. -/
def Mapping.wf (n : Nat) (m : Mapping) : Bool := rangeOk m.low m.high && decide (m.dev < n)

/-- No two ranges of the list intersect (10_state.md R24). -/
def disjointMappings : List Mapping → Bool
  | [] => true
  | m :: ms => ms.all (fun k => !m.intersects k.low k.high) && disjointMappings ms

/-- The state is sound: every device, every mapping, and the mappings together. -/
def State.wf (s : State) : Bool :=
  s.devices.all Device.wf && s.mappings.all (Mapping.wf s.devices.length) && disjointMappings s.mappings

/-- The state is not faulted (60_exceptions.md R161). -/
def State.alive (s : State) : Bool :=
  match s.life with
  | .haltedOnFault _ => false
  | _ => true

/-- A state no step of which is refused, with a sound bus: where a run may start (45_execution_step.md R140). -/
def State.ready (s : State) : Bool := s.wf && s.life.accepts

/-! ### Frames -/

/-- The data registers are those of `s` but for `r`. -/
def SameRegsBut (r : DataReg) (s t : State) : Prop := ∀ q, q ≠ r → t.reg q = s.reg q

/-- Every data register is that of `s`. -/
def SameRegs (s t : State) : Prop := ∀ q, t.reg q = s.reg q

/-- Every flag outside `fs` is that of `s` (10_state.md R20). -/
def SameFlagsBut (fs : List Flag) (s t : State) : Prop := ∀ f, f ∉ fs → t.flag f = s.flag f

/-- SP, LIFE, the record of a failed assembly and the bus's mapping list are those of `s`. -/
def SameControl (s t : State) : Prop :=
  t.sp = s.sp ∧ t.life = s.life ∧ t.assemblyFailed = s.assemblyFailed ∧ t.mappings = s.mappings

/-- Every memory byte, at every address and in every block, is that of `s`. -/
def SameMemory (s t : State) : Prop :=
  (∀ a, t.cellOf a = s.cellOf a) ∧ (∀ a, t.peek a = s.peek a) ∧ ∀ c, t.byteAt c = s.byteAt c

/-- The memory is that of `s` but for the block byte `c`, which holds `v`; every address reaches the byte it reached. -/
def MemoryWritten (c : Nat × Nat) (v : Byte) (s t : State) : Prop :=
  (∀ a, t.cellOf a = s.cellOf a) ∧
  (∀ a, s.cellOf a = some c → t.peek a = some v) ∧
  (∀ a, s.cellOf a ≠ some c → t.peek a = s.peek a) ∧
  (∀ d, d ≠ c → t.byteAt d = s.byteAt d)

/-- The memory is that of `s` but for the block bytes that the addresses `as` reach, which hold 0x00; every address
reaches the byte it reached. What a completed bus write of 0x00 to each of `as` leaves (10_state.md R22). -/
def MemoryZeroed (as : List Addr) (s t : State) : Prop :=
  (∀ a, t.cellOf a = s.cellOf a) ∧
  (∀ b c, b ∈ as → s.cellOf b = some c → t.byteAt c = some 0x00#8) ∧
  (∀ c, (∀ b, b ∈ as → s.cellOf b ≠ some c) → t.byteAt c = s.byteAt c) ∧
  (∀ a b c, b ∈ as → s.cellOf b = some c → s.cellOf a = some c → t.peek a = some 0x00#8) ∧
  (∀ a, (∀ b c, b ∈ as → s.cellOf b = some c → s.cellOf a ≠ some c) → t.peek a = s.peek a)

/-- The bus is that of `s`: no transaction was made, no device changed, no diagnostic was logged, no draw taken. -/
def SameBus (s t : State) : Prop :=
  t.devices = s.devices ∧ t.mappings = s.mappings ∧ t.diag = s.diag ∧ t.trace = s.trace ∧ t.draws = s.draws

/-! ### What an instruction does, for statements over several instructions -/

/-- From `s` to `t` register `r` became `v` with the flags of a load (41_loads.md R110): Z iff `v` is 0, N its bit 7,
never both; no other register or flag, nor SP, PC or LIFE, changed. -/
def LoadResult (r : DataReg) (v : Byte) (s t : State) : Prop :=
  t.reg r = v ∧ SameRegsBut r s t ∧ (t.flag .z = true ↔ v = 0x00#8) ∧ t.flag .n = v.getLsbD 7 ∧
  ¬(t.flag .z = true ∧ t.flag .n = true) ∧ SameFlagsBut [.z, .n] s t ∧ t.sp = s.sp ∧ t.pc = s.pc ∧ t.life = s.life

/-- From `s` to `t` flag `f` became `b` (42_flag_ops.md R120); no other flag, no register, nothing of the bus changed. -/
def FlagResult (f : Flag) (b : Bool) (s t : State) : Prop :=
  t.flag f = b ∧ SameFlagsBut [f] s t ∧ SameRegs s t ∧ SameControl s t ∧ t.pc = s.pc ∧ SameBus s t

/-- From `s` to `t` a store of `v` at `ea` completed (43_stores.md R130): the pre-read then the write are its bus
transactions; no register and no flag changed. -/
def StoreResult (ea : Addr) (v : Byte) (s t : State) : Prop :=
  SameRegs s t ∧ t.p = s.p ∧ SameControl s t ∧ t.pc = s.pc ∧ t.cyc = s.cyc + cyclesAbsolute ∧
  t.trace = .write ea v :: .read ea (memRead s ea).2 :: s.trace

/-- From `s` to `t` the store of `v` at `ea` by opcode `op` reached a read-only block (43_stores.md R130): halted with
`DeviceMisuse` and the name of the device there; no register, flag, memory byte, PC or cycle count changed; the pre-read and
the refused write are its bus transactions. -/
def StoreFault (op : Byte) (ea : Addr) (v : Byte) (s t : State) : Prop :=
  (∃ i d off, s.locate ea = some (i, d, off) ∧ t.life = .haltedOnFault (.deviceMisuse d.name ea v (some op))) ∧
  SameRegs s t ∧ t.p = s.p ∧ t.sp = s.sp ∧ t.mappings = s.mappings ∧ t.pc = s.pc ∧ t.cyc = s.cyc ∧ SameMemory s t ∧
  t.trace = .writeFatal ea v :: .read ea (memRead s ea).2 :: s.trace

/-- The bus reads of bytes fetched one after the other from address `a`, oldest first. -/
def fetchEvents (a : Addr) : List Byte → List BusEvent
  | [] => []
  | b :: bs => .read a b :: fetchEvents (a + 1#16) bs

/-- The bus transactions an instruction makes after its bytes were read, from the state `u` there, oldest first
(20_memory.md R60): an Absolute load's pre-read, a store's pre-read and its write. -/
def dataEvents (u : State) : Instr → List BusEvent
  | .ldaAbs ea => [.read ea (memRead u ea).2]
  | .ldxAbs ea => [.read ea (memRead u ea).2]
  | .ldyAbs ea => [.read ea (memRead u ea).2]
  | .sta ea => [.read ea (memRead u ea).2, .write ea u.a]
  | .stx ea => [.read ea (memRead u ea).2, .write ea u.x]
  | .sty ea => [.read ea (memRead u ea).2, .write ea u.y]
  | _ => []

/-- How many operand bytes a resolver consumes (30_encoding.md R80). -/
def operandBytes : Resolver → Nat
  | .implied => 0
  | .immediate => 1
  | .absolute => 2

/-- The opcode byte the next accepted step reads. -/
def State.nextOpcode (s : State) : Byte := (fetchByte (s.setLife .running)).2

/-- The table of 70_reset_and_hazards.md R182: in which lifecycle states a command is accepted. -/
def HostCommand.acceptedIn (c : HostCommand) (l : Life) : Bool :=
  match c with
  | .makeBlock _ _ _ _ => l == .poweredOff
  | .makeStub _ => l == .poweredOff
  | .makeExternal _ _ _ => l == .poweredOff
  | .addDevice _ _ _ => l == .poweredOff
  | .powerOn => l == .poweredOff
  | .reset => l.accepts
  | .step => l.accepts

/-- In which states a command is accepted: as the table says, and `power_on` only where no assembly command failed
(60_exceptions.md R155, log entry 14). -/
def HostCommand.accepted (c : HostCommand) (s : State) : Bool :=
  c.acceptedIn s.life &&
    match c with
    | .powerOn => !s.assemblyFailed
    | _ => true

end Sys2Proof.Machine
end

