-- ==== Sys2Proof/Certificates/Slice0/Obligations.lean ====
section
/-! DEFINITION. The statements for the provers. Where a clause rests on a value or a behaviour that the spec marks as its own decision (92_eei_decisions.md) or as derived, the docstring says so. -/

open Sys2Proof Sys2Proof.Machine

/-! ### Encoding -/

/-- 30_encoding.md R80, R83, R86: no bit of an encoding is dropped, for every instruction, every operand and any bytes
after it. -/
def Obligations.DecodeOfEncodeReturnsInstruction : Prop :=
  ∀ (i : Instr) (rest : List Byte), decode (encode i ++ rest) = .instr i rest

/-- 30_encoding.md R80, R81: what decodes to an instruction is that instruction's encoding and the bytes after it, so
each byte sequence has one meaning and each instruction one encoding. -/
def Obligations.DecodedBytesAreTheEncoding : Prop :=
  ∀ (bs : List Byte) (i : Instr) (rest : List Byte), decode bs = .instr i rest → bs = encode i ++ rest

/-- The table of encodings of 95_test_vectors.md, byte by byte, and the example of 30_encoding.md R89: an address below 0x0100
has the three-byte form too, and 0x85 is unassigned. The opcode bytes are the spec's decision D3. -/
def Obligations.EncodingVectorsDecode : Prop :=
  decode [0x18#8] = .instr .clc [] ∧ decode [0x38#8] = .instr .sec [] ∧ decode [0x58#8] = .instr .cli [] ∧
  decode [0x78#8] = .instr .sei [] ∧ decode [0xB8#8] = .instr .clv [] ∧ decode [0xD8#8] = .instr .cld [] ∧
  decode [0xF8#8] = .instr .sed [] ∧
  decode [0xA9#8, 0x42#8] = .instr (.ldaImm 0x42#8) [] ∧ decode [0xAD#8, 0x34#8, 0x12#8] = .instr (.ldaAbs 0x1234#16) [] ∧
  decode [0xA2#8, 0x42#8] = .instr (.ldxImm 0x42#8) [] ∧ decode [0xAE#8, 0x34#8, 0x12#8] = .instr (.ldxAbs 0x1234#16) [] ∧
  decode [0xA0#8, 0x42#8] = .instr (.ldyImm 0x42#8) [] ∧ decode [0xAC#8, 0x34#8, 0x12#8] = .instr (.ldyAbs 0x1234#16) [] ∧
  decode [0x8D#8, 0x34#8, 0x12#8] = .instr (.sta 0x1234#16) [] ∧ decode [0x8E#8, 0x34#8, 0x12#8] = .instr (.stx 0x1234#16) [] ∧
  decode [0x8C#8, 0x34#8, 0x12#8] = .instr (.sty 0x1234#16) [] ∧
  encode (.sta 0x0010#16) = [0x8D#8, 0x10#8, 0x00#8] ∧ decode [0x8D#8, 0x10#8, 0x00#8] = .instr (.sta 0x0010#16) [] ∧
  decode [0x85#8, 0x10#8] = .rejected (.unassigned 0x85#8)

/-- 30_encoding.md R85: the sixteen assigned opcodes decode whatever follows, and every other opcode is rejected by
name. Which opcodes are assigned is the spec's decision D2, their bytes D3. -/
def Obligations.ExactlyTheAssignedOpcodesDecode : Prop :=
  ∀ op : Byte,
    (op ∈ [0x18#8, 0x38#8, 0x58#8, 0x78#8, 0x8C#8, 0x8D#8, 0x8E#8, 0xA0#8, 0xA2#8, 0xA9#8, 0xAC#8, 0xAD#8, 0xAE#8, 0xB8#8,
        0xD8#8, 0xF8#8] ∧
      ∀ b c : Byte, ∃ i rest, decode [op, b, c] = .instr i rest) ∨
    (op ∉ [0x18#8, 0x38#8, 0x58#8, 0x78#8, 0x8C#8, 0x8D#8, 0x8E#8, 0xA0#8, 0xA2#8, 0xA9#8, 0xAC#8, 0xAD#8, 0xAE#8, 0xB8#8,
        0xD8#8, 0xF8#8] ∧
      ∀ rest, decode (op :: rest) = .rejected (.unassigned op))

/-! ### The step -/

/-- A step runs the decoded instruction: where the bytes the bus answers at PC, read one after the other, decode to `i`
and nothing is left over, `step` is `exec i` at the state after those reads, with LIFE Running and PC past the bytes
(45_execution_step.md R140, R141; that an accepted step first sets Running is the spec's decision D34). -/
def Obligations.StepRunsDecodedInstruction : Prop :=
  ∀ (s : State) (n : Nat) (i : Instr), s.life.accepts = true →
    decode (fetchBytes n (s.setLife .running)).2 = .instr i [] →
    step s = exec i (fetchBytes n (s.setLife .running)).1 ∧
    (fetchBytes n (s.setLife .running)).1.pc = s.pc + BitVec.ofNat 16 n ∧
    (fetchBytes n (s.setLife .running)).1.life = .running

/-- The same for an instruction lying in memory blocks: its bytes at PC, at PC +16 1 and at PC +16 2 as far as it has
them; nothing but LIFE, PC and the model's own trace differs when `exec` starts (45_execution_step.md R141; D34). -/
def Obligations.StepRunsInstructionInMemory : Prop :=
  ∀ (s : State) (i : Instr), s.life.accepts = true →
    (∀ (k : Nat) (b : Byte), (encode i)[k]? = some b → s.peek (s.pc + BitVec.ofNat 16 k) = some b) →
    step s = exec i { s with
      life := .running
      pc := s.pc + BitVec.ofNat 16 (encode i).length
      trace := (fetchEvents s.pc (encode i)).reverse ++ s.trace }

/-- 45_execution_step.md R141: the machine, which decodes and then dispatches, is the table-driven step of the spec on
the spec's table, in every state. -/
def Obligations.StepAgreesWithTableStep : Prop :=
  ∀ s : State, step s = stepTable opTable s

/-- 45_execution_step.md R142, 60_exceptions.md R151: an opcode whose table entry has the empty mnemonic halts the
machine after its one read, with nothing but PC and LIFE changed; and an opcode fetched from an unmapped address is
0x00 and halts so (the spec's own inference in R142). -/
def Obligations.UnassignedOpcodeHaltsAfterOneRead : Prop :=
  ∀ s : State, s.life.accepts = true →
    ((opTable s.nextOpcode).mnemonic = "" →
      ∃ t, step s = .next t ∧ t.life = .haltedOnFault (.unimplementedOpcode s.nextOpcode) ∧ t.pc = s.pc + 1#16 ∧
        SameRegs s t ∧ t.p = s.p ∧ t.sp = s.sp ∧ t.cyc = s.cyc ∧ t.mappings = s.mappings ∧ SameMemory s t ∧
        t.trace = .read s.pc s.nextOpcode :: s.trace) ∧
    (s.lookup s.pc = none →
      ∃ t, step s = .next t ∧ t.life = .haltedOnFault (.unimplementedOpcode 0x00#8) ∧
        t.diag = s.diag ++ [.unmappedRead s.pc])

/-- 70_reset_and_hazards.md R191: an accepted step completes or faults; it never blocks and is never refused. -/
def Obligations.AcceptedStepCompletesOrFaults : Prop :=
  ∀ s : State, s.life.accepts = true →
    ∃ t, step s = .next t ∧ (t.life = .running ∨ ∃ f, t.life = .haltedOnFault f)

/-- 10_state.md R15: PC advances by one for the opcode and by one for each operand byte, modulo 65536, whether the step
completes or faults. -/
def Obligations.StepAdvancesPcPastInstruction : Prop :=
  ∀ s t : State, step s = .next t →
    ((opTable s.nextOpcode).assigned = false → t.pc = s.pc + 1#16) ∧
    ((opTable s.nextOpcode).assigned = true →
      t.pc = s.pc + 1#16 + BitVec.ofNat 16 (operandBytes (opTable s.nextOpcode).resolver))

/-- 45_execution_step.md R145: a step that does not fault adds the declared cost of its entry to CYC, a step that faults
adds nothing; the costs are 2 for Implied and Immediate and 4 for Absolute (the spec's decision D5). -/
def Obligations.CompletedStepAddsDeclaredCost : Prop :=
  ∀ s t : State, step s = .next t →
    (t.alive = true → (opTable s.nextOpcode).assigned = true ∧
      t.cyc = s.cyc + (if operandBytes (opTable s.nextOpcode).resolver = 2 then 4 else 2)) ∧
    (t.alive = false → t.cyc = s.cyc)

/-- 20_memory.md R60, the spec's own inference: the bus transactions of a step that does not fault, in order: the bytes
of the instruction, then its pre-read, then its write. That a store makes the pre-read too is the spec's decision
D14; the record of transactions is the model's own, log entry 9. -/
def Obligations.BusTransactionsOfAStep : Prop :=
  ∀ (s : State) (n : Nat) (i : Instr), s.life.accepts = true →
    decode (fetchBytes n (s.setLife .running)).2 = .instr i [] →
    ∃ t, step s = .next t ∧ (t.alive = true →
      t.trace = (dataEvents (fetchBytes n (s.setLife .running)).1 i).reverse ++
        (fetchEvents s.pc (encode i)).reverse ++ s.trace)

/-! ### Loads -/

/-- 41_loads.md R110: each load sets its register to the operand byte (the pre-read byte in Absolute mode) and Z and N
by it, changes no other register or flag, makes no bus access of its own, and raises no fault. -/
def Obligations.LoadsSetRegisterZeroNegative : Prop :=
  ∀ (s : State) (v : Byte) (ea : Addr),
    (∃ t, exec (.ldaImm v) s = .next t ∧ LoadResult .a v s t ∧ SameBus s t) ∧
    (∃ t, exec (.ldxImm v) s = .next t ∧ LoadResult .x v s t ∧ SameBus s t) ∧
    (∃ t, exec (.ldyImm v) s = .next t ∧ LoadResult .y v s t ∧ SameBus s t) ∧
    (∃ t, exec (.ldaAbs ea) s = .next t ∧ LoadResult .a (memRead s ea).2 s t ∧ SameBus (memRead s ea).1 t) ∧
    (∃ t, exec (.ldxAbs ea) s = .next t ∧ LoadResult .x (memRead s ea).2 s t ∧ SameBus (memRead s ea).1 t) ∧
    (∃ t, exec (.ldyAbs ea) s = .next t ∧ LoadResult .y (memRead s ea).2 s t ∧ SameBus (memRead s ea).1 t)

/-- The frame of the loads in memory (41_loads.md): every byte of memory reads as before, and the cost is 2 in Immediate
and 4 in Absolute mode (the spec's decision D5). -/
def Obligations.LoadsLeaveMemoryAndAddCost : Prop :=
  ∀ (s : State) (v : Byte) (ea : Addr) (i : Instr),
    (i ∈ [Instr.ldaImm v, .ldxImm v, .ldyImm v] →
      ∃ t, exec i s = .next t ∧ SameMemory s t ∧ SameControl s t ∧ t.cyc = s.cyc + 2) ∧
    (i ∈ [Instr.ldaAbs ea, .ldxAbs ea, .ldyAbs ea] →
      ∃ t, exec i s = .next t ∧ SameMemory s t ∧ SameControl s t ∧ t.cyc = s.cyc + 4)

/-- 41_loads.md R112, R114, R116 over a memory block: the load answers the block byte its address reaches, and every
device, diagnostic and draw is as before. -/
def Obligations.AbsoluteLoadOfMemoryByte : Prop :=
  ∀ (s : State) (ea : Addr) (v : Byte), s.peek ea = some v →
    (∃ t, exec (.ldaAbs ea) s = .next t ∧ LoadResult .a v s t ∧ t.devices = s.devices ∧ t.diag = s.diag ∧
      t.draws = s.draws ∧ t.trace = .read ea v :: s.trace) ∧
    (∃ t, exec (.ldxAbs ea) s = .next t ∧ LoadResult .x v s t ∧ t.devices = s.devices ∧ t.diag = s.diag ∧
      t.draws = s.draws ∧ t.trace = .read ea v :: s.trace) ∧
    (∃ t, exec (.ldyAbs ea) s = .next t ∧ LoadResult .y v s t ∧ t.devices = s.devices ∧ t.diag = s.diag ∧
      t.draws = s.draws ∧ t.trace = .read ea v :: s.trace)

/-- 41_loads.md R112, R114, R116 corner cases: at an unmapped address the register becomes 0x00 with Z set and N clear and one
diagnostic; at a stub it becomes the next draw, with Z and N of that draw (the spec's decision D18), and no
diagnostic. -/
def Obligations.AbsoluteLoadOfUnmappedOrStub : Prop :=
  ∀ (s : State) (ea : Addr) (r : DataReg) (i : Instr),
    (r, i) ∈ [(DataReg.a, Instr.ldaAbs ea), (.x, .ldxAbs ea), (.y, .ldyAbs ea)] →
    (s.lookup ea = none →
      ∃ t, exec i s = .next t ∧ LoadResult r 0x00#8 s t ∧ t.flag .z = true ∧ t.flag .n = false ∧
        t.diag = s.diag ++ [.unmappedRead ea] ∧ t.devices = s.devices ∧ t.draws = s.draws) ∧
    (∀ k name off, s.locate ea = some (k, ⟨name, .stub⟩, off) →
      ∃ t, exec i s = .next t ∧ LoadResult r (Config.draw s.draws) s t ∧ t.diag = s.diag ∧ t.devices = s.devices ∧
        t.draws = s.draws + 1)

/-! ### Flag operations -/

/-- 42_flag_ops.md R120: each flag operation writes its one bit and nothing else; run again it leaves the same P; it
raises no fault. -/
def Obligations.FlagOperationsTouchOneBit : Prop :=
  ∀ (s : State) (f : Flag) (b : Bool) (i : Instr),
    (f, b, i) ∈ [(Flag.c, false, Instr.clc), (.c, true, .sec), (.i, false, .cli), (.i, true, .sei), (.v, false, .clv),
        (.d, false, .cld), (.d, true, .sed)] →
    ∃ t u, exec i s = .next t ∧ FlagResult f b s t ∧ exec i t = .next u ∧ u.p = t.p

/-! ### Stores -/

/-- 43_stores.md R130 to R133: outside a read-only block each store completes, pre-read then write, and adds its cost; in a
read-only block it halts with `DeviceMisuse`; at an unmapped address it completes with its two diagnostics and memory as
it was. The cost of 4 (30_encoding.md R88) is the spec's decision D5, that a store makes the pre-read
(40_addressing_resolvers.md R103) D14, the halt (20_memory.md R51, 60_exceptions.md R153) D15. The transactions are those
of the model's own field trace, log entry 9. -/
def Obligations.StoresWriteOrHalt : Prop :=
  ∀ (s : State) (ea : Addr) (op v : Byte) (i : Instr),
    (op, v, i) ∈ [(opSTA, s.a, Instr.sta ea), (opSTX, s.x, .stx ea), (opSTY, s.y, .sty ea)] →
    (s.readOnlyAt ea = false → ∃ t, exec i s = .next t ∧ StoreResult ea v s t) ∧
    (s.readOnlyAt ea = true → ∃ t, exec i s = .next t ∧ StoreFault op ea v s t) ∧
    (s.lookup ea = none → ∃ t, exec i s = .next t ∧ SameMemory s t ∧
      t.diag = s.diag ++ [.unmappedRead ea, .unmappedWrite ea v])

/-- 43_stores.md R131 to R133 with 20_memory.md R50 and R63 (mirroring, the spec's own inference): in a read-write block
the store writes the byte its address reaches, seen through every address that reaches it, and every other byte of
memory, device, diagnostic and draw is as before. The premise `wf` is the invariant of the statements below. -/
def Obligations.StoreWritesOneMemoryByte : Prop :=
  ∀ (s : State) (ea : Addr) (c : Nat × Nat) (v : Byte) (i : Instr),
    (v, i) ∈ [(s.a, Instr.sta ea), (s.x, .stx ea), (s.y, .sty ea)] →
    s.wf = true → s.cellOf ea = some c → s.readOnlyAt ea = false →
    ∃ t, exec i s = .next t ∧ MemoryWritten c v s t ∧ t.diag = s.diag ∧ t.draws = s.draws ∧
      ∀ k, k ≠ c.1 → t.devices[k]? = s.devices[k]?

/-- Where no memory block owns the address, a store leaves every byte of memory (20_memory.md R48; for a stub the spec's
decision D18). -/
def Obligations.StoreOutsideMemoryLeavesMemory : Prop :=
  ∀ (s : State) (ea : Addr) (i : Instr), i ∈ [Instr.sta ea, .stx ea, .sty ea] → s.cellOf ea = none →
    ∃ t, exec i s = .next t ∧ SameMemory s t ∧
      ((∃ k name off, s.locate ea = some (k, ⟨name, .stub⟩, off)) → t.devices = s.devices ∧ t.diag = s.diag)

/-- 20_memory.md R62, the spec's own inference: a byte a store wrote is what a fetch reads next, at every address that
reaches it. -/
def Obligations.StoreSeenByNextFetch : Prop :=
  ∀ (s : State) (ea b : Addr) (c : Nat × Nat) (v : Byte) (i : Instr),
    (v, i) ∈ [(s.a, Instr.sta ea), (s.x, .stx ea), (s.y, .sty ea)] →
    s.wf = true → s.cellOf ea = some c → s.readOnlyAt ea = false → s.cellOf b = some c →
    ∃ t, exec i s = .next t ∧ (fetchByte (t.setPc b)).2 = v

/-- 20_memory.md R41, 70_reset_and_hazards.md R186: at a device that is neither block nor stub, an absolute load takes the
byte of the device's read and leaves the state the read leaves; a store makes that read first and then the device's
write on the state it left. Both functions are free values (log entry 10). That a store makes the read
first is the spec's decision D14. -/
def Obligations.AbsoluteAccessOfOtherDevice : Prop :=
  ∀ (s : State) (ea off : Addr) (k id st : Nat) (name : String), s.locate ea = some (k, ⟨name, .external id st⟩, off) →
    (∀ r i, (r, i) ∈ [(DataReg.a, Instr.ldaAbs ea), (.x, .ldxAbs ea), (.y, .ldyAbs ea)] →
      ∃ t, exec i s = .next t ∧ LoadResult r (Config.extRead id st off).2 s t ∧
        t.devices = s.devices.set k ⟨name, .external id (Config.extRead id st off).1⟩ ∧ t.diag = s.diag) ∧
    (∀ v i, (v, i) ∈ [(s.a, Instr.sta ea), (s.x, .stx ea), (s.y, .sty ea)] →
      ∃ t, exec i s = .next t ∧ StoreResult ea v s t ∧
        t.devices = s.devices.set k ⟨name, .external id (Config.extWrite id (Config.extRead id st off).1 off v)⟩ ∧
        t.diag = s.diag ∧ SameMemory s t)

/-! ### The bus -/

/-- 20_memory.md R44: lookup answers the first mapping in registration order that owns the address, none where none
does; on a sound bus the first owner is the only one. -/
def Obligations.LookupAnswersTheOnlyOwner : Prop :=
  ∀ (s : State) (a : Addr),
    (∀ pre m post, s.mappings = pre ++ m :: post → (∀ k, k ∈ pre → ¬(k.low ≤ a ∧ a ≤ k.high)) → m.low ≤ a → a ≤ m.high →
      s.lookup a = some m) ∧
    ((∀ m, m ∈ s.mappings → ¬(m.low ≤ a ∧ a ≤ m.high)) → s.lookup a = none) ∧
    (s.wf = true → ∀ m, m ∈ s.mappings → m.low ≤ a → a ≤ m.high → s.lookup a = some m)

/-- 20_memory.md R45: a bus read answers what the device that owns the address reads at `a - low`, with the device's new
state; where none owns it, 0x00 and a diagnostic. It never halts the machine. -/
def Obligations.BusReadDelegatesWithTranslation : Prop :=
  ∀ (s : State) (a : Addr), s.wf = true →
    (memRead s a).1.life = s.life ∧
    (∀ m d, m ∈ s.mappings → m.low ≤ a → a ≤ m.high → s.devices[m.dev]? = some d →
      memRead s a =
        ((s.readDevice m.dev d (BitVec.ofNat 16 (a.toNat - m.low.toNat))).1.note
            (.read a (s.readDevice m.dev d (BitVec.ofNat 16 (a.toNat - m.low.toNat))).2),
          (s.readDevice m.dev d (BitVec.ofNat 16 (a.toNat - m.low.toNat))).2)) ∧
    ((∀ m, m ∈ s.mappings → ¬(m.low ≤ a ∧ a ≤ m.high)) →
      (memRead s a).2 = 0x00#8 ∧ (memRead s a).1.diag = s.diag ++ [.unmappedRead a])

/-- 20_memory.md R46: a bus write hands the byte to the device that owns the address, at `a - low`: a read-write block
sets the byte at that offset modulo its length, a read-only one raises `DeviceMisuse`, a stub drops it (the spec's
decision D18), any other device takes its new private state from its write function (a free value, log entry 10); where
none owns the address it is dropped with a diagnostic. It raises no fault but at a read-only
block; that fault is the spec's decision D15. -/
def Obligations.BusWriteDelegatesWithTranslation : Prop :=
  ∀ (op : Option Byte) (s : State) (a : Addr) (v : Byte), s.wf = true →
    (∀ m d, m ∈ s.mappings → m.low ≤ a → a ≤ m.high → s.devices[m.dev]? = some d →
      memWrite op s a v =
        match d.kind with
        | .block true _ _ => .raised (.deviceMisuse d.name a v op) (s.note (.writeFatal a v))
        | .block false len cells =>
          .done ((s.setDevice m.dev
            ⟨d.name, .block false len (Memory.write cells ((a.toNat - m.low.toNat) % len) v)⟩).note (.write a v))
        | .stub => .done (s.note (.write a v))
        | .external id st =>
          .done ((s.setDevice m.dev
            ⟨d.name, .external id (Config.extWrite id st (BitVec.ofNat 16 (a.toNat - m.low.toNat)) v)⟩).note (.write a v))) ∧
    ((∀ m, m ∈ s.mappings → ¬(m.low ≤ a ∧ a ≤ m.high)) →
      memWrite op s a v = .done ((s.logDiag (.unmappedWrite a v)).note (.write a v))) ∧
    (∀ f t, memWrite op s a v = .raised f t → s.readOnlyAt a = true ∧ ∃ n, f = .deviceMisuse n a v op)

/-- 20_memory.md R49: a bus read in a memory block answers the byte at `(a - low) mod N`, changes nothing, and
answers alike at addresses N apart. -/
def Obligations.BlockReadIsModuloItsLength : Prop :=
  ∀ (s : State) (a : Addr) (m : Mapping) (name : String) (ro : Bool) (len : Nat) (cells : Memory),
    s.lookup a = some m → s.devices[m.dev]? = some ⟨name, .block ro len cells⟩ →
    memRead s a = (s.note (.read a (Memory.read cells ((a.toNat - m.low.toNat) % len))),
      Memory.read cells ((a.toNat - m.low.toNat) % len)) ∧
    ∀ b : Addr, b.toNat = a.toNat + len → s.lookup b = some m → (memRead s b).2 = (memRead s a).2

/-- 20_memory.md R47: a read of an address no mapping owns answers exactly 0x00 and appends one event; nothing else
but the model's own trace changes. -/
def Obligations.UnmappedReadIsZeroAndLogged : Prop :=
  ∀ (s : State) (a : Addr), (∀ m, m ∈ s.mappings → ¬(m.low ≤ a ∧ a ≤ m.high)) →
    memRead s a = ({ s with diag := s.diag ++ [.unmappedRead a], trace := .read a 0x00#8 :: s.trace }, 0x00#8)

/-- 20_memory.md R48: a write to an address no mapping owns is dropped with one event and no fault. -/
def Obligations.UnmappedWriteIsDroppedAndLogged : Prop :=
  ∀ (op : Option Byte) (s : State) (a : Addr) (v : Byte), (∀ m, m ∈ s.mappings → ¬(m.low ≤ a ∧ a ≤ m.high)) →
    memWrite op s a v =
      .done { s with diag := s.diag ++ [.unmappedWrite a v], trace := .write a v :: s.trace }

/-- 20_memory.md R50: after a write to a read-write block every address that reaches the byte reads it, every other
memory address reads as before. -/
def Obligations.BusWriteReadsBack : Prop :=
  ∀ (op : Option Byte) (s : State) (a : Addr) (v : Byte) (c : Nat × Nat), s.wf = true → s.cellOf a = some c →
    s.readOnlyAt a = false →
    ∃ t, memWrite op s a v = .done t ∧
      (∀ b, s.cellOf b = some c → (memRead t b).2 = v) ∧
      (∀ b d, s.cellOf b = some d → d ≠ c → (memRead t b).2 = (memRead s b).2)

/-- 10_state.md R25: no command changes a read-only block, and a read-write block keeps its name, length and flag. -/
def Obligations.OnlyReadWriteBytesChange : Prop :=
  ∀ (c : HostCommand) (s : State) (k : Nat) (name : String) (ro : Bool) (len : Nat) (cells : Memory),
    s.devices[k]? = some ⟨name, .block ro len cells⟩ →
    ∃ cells', (runCommand c s).state.devices[k]? = some ⟨name, .block ro len cells'⟩ ∧ (ro = true → cells' = cells)

/-! ### Resolvers -/

/-- 40_addressing_resolvers.md R101, R102: Implied touches nothing and answers (0, 0); Immediate makes exactly one bus
read, at the entry PC, whatever owns that address, and advances PC by one modulo 65536. -/
def Obligations.ImpliedAndImmediateResolve : Prop :=
  ∀ s : State,
    resolveImplied s = (s, 0x0000#16, 0x00#8) ∧
    (∀ t ea v, resolveImmediate s = (t, ea, v) →
      v = (memRead s s.pc).2 ∧ ea = 0x0000#16 ∧ t.pc = s.pc + 1#16 ∧ t.trace = .read s.pc v :: s.trace ∧ SameRegs s t ∧
        t.p = s.p ∧ t.sp = s.sp ∧ t.cyc = s.cyc ∧ t.life = s.life ∧ t.mappings = s.mappings ∧ SameMemory s t ∧
        (∀ b, s.peek s.pc = some b → v = b) ∧
        (s.lookup s.pc = none → v = 0x00#8 ∧ t.diag = s.diag ++ [.unmappedRead s.pc]))

/-- 40_addressing_resolvers.md R103: Absolute makes exactly three bus reads, low byte, high byte, then the effective
address `hi * 256 + lo`, and advances PC by two modulo 65536. (That stores make the third read too is the spec's
decision D14.) -/
def Obligations.AbsoluteResolves : Prop :=
  ∀ (s : State) (lo hi v : Byte) (ea : Addr), s.peek s.pc = some lo → s.peek (s.pc + 1#16) = some hi →
    ea.toNat = hi.toNat * 256 + lo.toNat → s.peek ea = some v →
    resolveAbsolute s =
      ({ s with
          pc := s.pc + 2#16
          trace := .read ea v :: .read (s.pc + 1#16) hi :: .read s.pc lo :: s.trace }, ea, v)

/-! ### Tables given as an argument -/

/-- 45_execution_step.md R143: an entry of cost zero does all its instruction does (here: what it does at cost 1), adds
nothing to CYC and halts with `MissingCycleCount`; a store that faulted already keeps its fault. That the check comes
last is the spec's decision D16. The table is any, so it may hold a flag operation that R120 says does not exist: that the
model runs one is its choice, log entry 15. -/
def Obligations.ZeroCostEntryHaltsAfterItsEffect : Prop :=
  ∀ (table : Byte → OpEntry) (s : State) (e : OpEntry), s.life.accepts = true → table s.nextOpcode = e →
    e.assigned = true → e.wellPaired = true → e.cycles = 0 →
    ∃ u, stepTable (fun op => if op = s.nextOpcode then { e with cycles := 1 } else table op) s = .next u ∧
      (u.alive = true →
        stepTable table s = .next { u with cyc := s.cyc, life := .haltedOnFault (.missingCycleCount s.nextOpcode) }) ∧
      (u.alive = false → stepTable table s = .next u)

/-- 40_addressing_resolvers.md R106 and 30_encoding.md R82: a table of well-formed entries is never refused and never raises
`MissingCycleCount`, an ill-paired entry is refused, and the machine's own table is well formed. To refuse a store with
Implied or Immediate and a load with Implied is the spec's decision D29; to refuse a flag operation with Immediate or
Absolute too, and to refuse after the opcode read, is the model's, log entry 12. That a flag operation
other than R120's seven counts as well formed is the model's, log entry 15. -/
def Obligations.WellFormedTableRuns : Prop :=
  (∀ (table : Byte → OpEntry) (s : State), s.life.accepts = true →
    ((∀ op, (table op).wellFormed = true) →
      ∃ t, stepTable table s = .next t ∧ ∀ op, t.life ≠ .haltedOnFault (.missingCycleCount op)) ∧
    ((table s.nextOpcode).assigned = true → (table s.nextOpcode).wellPaired = false →
      stepTable table s = .refused (.illPairedEntry s.nextOpcode))) ∧
  ∀ op, (opTable op).wellFormed = true

/-! ### Commands and the lifecycle -/

/-- 70_reset_and_hazards.md R182 (the spec's completion of the table, decisions D13 and D34): a command is refused
exactly where the table says so, a refused command changes nothing, and an accepted one leaves LIFE as the table says.
(An `add_device` that names no device is refused too, log entry 8; over a system that failed assembly, which R155 says is
never powered on, `power_on` is refused, log entry 14.) -/
def Obligations.LifecycleFollowsTheTable : Prop :=
  ∀ (c : HostCommand) (s : State), (∀ dev low high, c = .addDevice dev low high → dev < s.devices.length) →
    ((runCommand c s).reply = .refused ↔ c.accepted s = false) ∧
    (c.accepted s = false → runCommand c s = ⟨s, .refused, []⟩) ∧
    (c.accepted s = true →
      match c with
      | .powerOn => (runCommand c s).state.life = .poweredOn ∨
          ∃ n a v, (runCommand c s).state.life = .haltedOnFault (.deviceMisuse n a v none)
      | .reset => (runCommand c s).state.life = s.life ∨
          ∃ n a v, (runCommand c s).state.life = .haltedOnFault (.deviceMisuse n a v none)
      | .step => (runCommand c s).state.life = .running ∨ ∃ f, (runCommand c s).state.life = .haltedOnFault f
      | _ => (runCommand c s).state.life = .poweredOff)

/-- 60_exceptions.md R161: no command leaves HaltedOnFault, so no second fault follows a first. -/
def Obligations.HaltedIsForEver : Prop :=
  ∀ (s : State) (f : Fault) (c : HostCommand), s.life = .haltedOnFault f →
    (runCommand c s).state = s ∧ (runCommand c s).reply = .refused ∧ step s = .refused (.commandRefused s.life)

/-- 70_reset_and_hazards.md R180, 10_state.md R30, R22: what `power_on` leaves, in any assembled system whose zeroed addresses
no read-only block owns; in a sound one every memory byte stays but those the two addresses reach, which become 0x00.
The numbers are the spec's decisions D7 to D11. (An assembled system is one no assembly command of which failed, R66.) -/
def Obligations.PowerOnLeavesResetValues : Prop :=
  ∀ s : State, s.life = .poweredOff → s.assemblyFailed = false → s.readOnlyAt 0x4017#16 = false → s.readOnlyAt 0x4015#16 = false →
    ∃ t lo hi, (powerOn s).state = t ∧ (powerOn s).reply = .ok ∧ SameRegs { s with a := 0x00#8, x := 0x00#8, y := 0x00#8 } t ∧
      t.p = 0x34#8 ∧ t.sp = 0xFD#8 ∧ t.cyc = 0 ∧ t.life = .poweredOn ∧ t.mappings = s.mappings ∧
      t.pc.toNat = hi.toNat * 256 + lo.toNat ∧
      (∀ b, t.peek 0xFFFC#16 = some b → lo = b) ∧ (∀ b, t.peek 0xFFFD#16 = some b → hi = b) ∧
      (s.cellOf 0x4017#16 = none → s.cellOf 0x4015#16 = none → SameMemory s t) ∧
      (s.wf = true → MemoryZeroed [0x4017#16, 0x4015#16] s t) ∧
      t.trace = .read 0xFFFD#16 hi :: .read 0xFFFC#16 lo :: .write 0x4015#16 0x00#8 :: .write 0x4017#16 0x00#8 :: s.trace

/-- 70_reset_and_hazards.md R181, 10_state.md R31: what `reset` leaves where no read-only block owns 0x4015. The numbers
are the spec's decisions D9 and D10, that CYC and LIFE stay D11 and D13. -/
def Obligations.SoftResetLeavesResetValues : Prop :=
  ∀ s : State, s.life.accepts = true → s.readOnlyAt 0x4015#16 = false →
    ∃ t lo hi, (softReset s).state = t ∧ (softReset s).reply = .ok ∧ SameRegs s t ∧
      t.sp = s.sp - 3#8 ∧ t.flag .i = true ∧ SameFlagsBut [.i] s t ∧ t.cyc = s.cyc ∧ t.life = s.life ∧
      t.mappings = s.mappings ∧ t.pc.toNat = hi.toNat * 256 + lo.toNat ∧
      (∀ b, t.peek 0xFFFC#16 = some b → lo = b) ∧ (∀ b, t.peek 0xFFFD#16 = some b → hi = b) ∧
      (s.cellOf 0x4015#16 = none → SameMemory s t) ∧
      (∀ c, s.wf = true → s.cellOf 0x4015#16 = some c → MemoryWritten c 0x00#8 s t) ∧
      t.trace = .read 0xFFFD#16 hi :: .read 0xFFFC#16 lo :: .write 0x4015#16 0x00#8 :: s.trace

/-- 60_exceptions.md R153 (the spec's decision D15): a zeroing write of power-on or reset that reaches a read-only block
halts the machine there, at the first of power-on's two writes, at the second, or at reset's one: the registers set
before it keep their new values, no PC is loaded, and no memory byte changes but the one that a first write of
power-on, completed before the second, reaches. -/
def Obligations.ZeroingReadOnlyHaltsBeforeTheVector : Prop :=
  ∀ s : State, s.wf = true →
    (s.life = .poweredOff → s.assemblyFailed = false → s.readOnlyAt 0x4017#16 = true →
      ∃ n t, powerOn s = commandResult s t (.fault (.deviceMisuse n 0x4017#16 0x00#8 none)) ∧
        t.life = .haltedOnFault (.deviceMisuse n 0x4017#16 0x00#8 none) ∧ t.pc = s.pc ∧
        SameRegs { s with a := 0x00#8, x := 0x00#8, y := 0x00#8 } t ∧ t.p = 0x34#8 ∧ t.sp = 0xFD#8 ∧ t.cyc = 0 ∧
        SameMemory s t ∧ t.trace = .writeFatal 0x4017#16 0x00#8 :: s.trace) ∧
    (s.life = .poweredOff → s.assemblyFailed = false → s.readOnlyAt 0x4017#16 = false → s.readOnlyAt 0x4015#16 = true →
      ∃ n t, powerOn s = commandResult s t (.fault (.deviceMisuse n 0x4015#16 0x00#8 none)) ∧
        t.life = .haltedOnFault (.deviceMisuse n 0x4015#16 0x00#8 none) ∧ t.pc = s.pc ∧
        SameRegs { s with a := 0x00#8, x := 0x00#8, y := 0x00#8 } t ∧ t.p = 0x34#8 ∧ t.sp = 0xFD#8 ∧ t.cyc = 0 ∧
        MemoryZeroed [0x4017#16] s t ∧
        t.trace = .writeFatal 0x4015#16 0x00#8 :: .write 0x4017#16 0x00#8 :: s.trace) ∧
    (s.life.accepts = true → s.readOnlyAt 0x4015#16 = true →
      ∃ n t, softReset s = commandResult s t (.fault (.deviceMisuse n 0x4015#16 0x00#8 none)) ∧
        t.life = .haltedOnFault (.deviceMisuse n 0x4015#16 0x00#8 none) ∧ t.pc = s.pc ∧
        SameRegs s t ∧ t.sp = s.sp - 3#8 ∧ t.flag .i = true ∧ SameFlagsBut [.i] s t ∧ t.cyc = s.cyc ∧
        SameMemory s t ∧ t.trace = .writeFatal 0x4015#16 0x00#8 :: s.trace)

/-- 20_memory.md R43 (which error for `low > high` and which device an overlap names are the spec's decisions D20 and
D22): a registration succeeds exactly when its range shares no address with a mapping, a failed one changes nothing
but the record that assembly failed and names the first mapping in registration order that it meets. -/
def Obligations.AddDeviceRegistersOrNamesOverlap : Prop :=
  ∀ (s : State) (dev : Nat) (low high : Addr), s.wf = true → s.life = .poweredOff → dev < s.devices.length →
    (high < low → addDevice s dev low high = ⟨{ s with assemblyFailed := true }, .configError (.invalidRange low high), []⟩) ∧
    (low ≤ high → (∀ m, m ∈ s.mappings → ¬∃ a, m.owns a = true ∧ low ≤ a ∧ a ≤ high) →
      addDevice s dev low high = ⟨{ s with mappings := s.mappings ++ [⟨dev, low, high⟩] }, .ok, []⟩) ∧
    (low ≤ high → ∀ pre m post d, s.mappings = pre ++ m :: post →
      (∀ k, k ∈ pre → ¬∃ a, k.owns a = true ∧ low ≤ a ∧ a ≤ high) → (∃ a, m.owns a = true ∧ low ≤ a ∧ a ≤ high) →
      s.devices[m.dev]? = some d →
      addDevice s dev low high = ⟨{ s with assemblyFailed := true }, .configError (.overlap d.name), []⟩)

/-- 20_memory.md R52 (the bound is the spec's decision D21): a block of illegal length is never made, and the
failure is recorded. -/
def Obligations.IllegalBlockLengthIsRefused : Prop :=
  ∀ (s : State) (name : String) (ro : Bool) (len : Nat) (init : List Host.Cell), s.life = .poweredOff →
    (len = 0 ∨ 65536 < len →
      makeBlock s name ro len init = ⟨{ s with assemblyFailed := true }, .configError (.invalidBlockLength len), []⟩) ∧
    (1 ≤ len → len ≤ 65536 →
      ∃ cells, makeBlock s name ro len init = ⟨{ s with devices := s.devices ++ [⟨name, .block ro len cells⟩] }, .ok, []⟩ ∧
        ∀ k, (∀ e, e ∈ init → e.1 % len ≠ k) → Memory.read cells k = 0x00#8)

/-- 60_exceptions.md R155, 20_memory.md R66: each configuration error comes from the command that R155 names, in PoweredOff,
and changes neither the mapping list nor a device; after one, no commands, whatever they are, power the CPU on. (That
`power_on` is then refused, and that no command clears the record, is the model's reading, log entry 14.) -/
def Obligations.FailedAssemblyIsNeverPoweredOn : Prop :=
  ∀ (c : HostCommand) (s : State) (e : ConfigError), (runCommand c s).reply = .configError e →
    s.life = .poweredOff ∧
    ((∃ name ro len init, c = .makeBlock name ro len init ∧ e = .invalidBlockLength len ∧ blockLengthOk len = false) ∨
      (∃ dev low high, c = .addDevice dev low high ∧
        (e = .invalidRange low high ∧ high < low ∨
          ∃ m, m ∈ s.mappings ∧ m.intersects low high = true ∧ e = .overlap (s.deviceName m)))) ∧
    (runCommand c s).state.mappings = s.mappings ∧ (runCommand c s).state.devices = s.devices ∧
    ∀ cs : List HostCommand,
      (runCommands cs (runCommand c s).state).life = .poweredOff ∧
      (runCommand .powerOn (runCommands cs (runCommand c s).state)).reply = .refused

/-! ### Rules of the whole machine -/

/-- 20_memory.md R43, R52, R66 with the canonical form of memory: every step keeps a sound state sound. -/
def Obligations.StepKeepsSoundState : Prop :=
  ∀ s t : State, s.wf = true → step s = .next t → t.wf = true

/-- The same of every host command, assembly included: a system that passed every `add_device` is sound (R66). -/
def Obligations.EveryCommandKeepsSoundState : Prop :=
  ∀ (c : HostCommand) (s : State), s.wf = true → (runCommand c s).state.wf = true

/-- The state after reset is sound, and a step from it is accepted. (Its map and its bytes are the model's choice, log
entries 1 and 2.) -/
def Obligations.ResetStateIsSound : Prop :=
  State.reset.wf = true ∧ State.reset.life.accepts = true ∧ State.off.wf = true

/-- 10_state.md R14: SP is touched by power-on and reset only, and no step reads it. -/
def Obligations.OnlyPowerOnAndResetTouchSp : Prop :=
  ∀ (c : HostCommand) (s : State),
    (c ≠ .powerOn → c ≠ .reset → (runCommand c s).state.sp = s.sp) ∧
    (s.life = .poweredOff → s.assemblyFailed = false → (runCommand .powerOn s).state.sp = Config.spPowerOn) ∧
    (s.life.accepts = true → (runCommand .reset s).state.sp = s.sp - 3#8) ∧
    (∀ t v, step s = .next t → step { s with sp := v } = .next { t with sp := v })

/-- 10_state.md R19 and R23 (no instruction reads a flag or CYC) with R14: from a state `s` a step writes the flags `ws`, to
values, and adds a cost `m`; from any state that differs from `s` in P, SP and CYC only it writes the same flags to the
same values, leaves every other flag as it was there, leaves SP, adds the same cost, and does all else alike. -/
def Obligations.StepIgnoresFlagsSpAndCycles : Prop :=
  ∀ s t : State, step s = .next t →
    ∃ (ws : List Flag) (m : Nat), t.cyc = s.cyc + m ∧ SameFlagsBut ws s t ∧
      ∀ (p sp : Byte) (n : Nat), ∃ q,
        step { s with p := p, sp := sp, cyc := n } = .next { t with p := q, sp := sp, cyc := n + m } ∧
        ∀ f, (f ∈ ws → getFlag f q = t.flag f) ∧ (f ∉ ws → getFlag f q = getFlag f p)

/-- 10_state.md R24: after assembly the mapping list never changes. -/
def Obligations.MappingsAreFixedAfterAssembly : Prop :=
  ∀ (c : HostCommand) (s : State), s.life ≠ .poweredOff ∨ c = .powerOn ∨ c = .reset ∨ c = .step →
    (runCommand c s).state.mappings = s.mappings ∧ (runCommand c s).state.devices.length = s.devices.length

/-- 10_state.md R18: no step sets V or changes B4 or B5 (that B4 and B5 are plain stored bits is the spec's decision D26;
the bit numbers are D6). -/
def Obligations.StepNeverSetsOverflowNorReservedBits : Prop :=
  ∀ s t : State, step s = .next t →
    t.flag .b4 = s.flag .b4 ∧ t.flag .b5 = s.flag .b5 ∧ (s.flag .v = false → t.flag .v = false)

/-- 10_state.md R26 (the form of DIAG is the spec's decision D17): DIAG is append-only, and a command's result holds
exactly what it appended. -/
def Obligations.DiagIsAppendOnly : Prop :=
  ∀ (c : HostCommand) (s : State), (runCommand c s).state.diag = s.diag ++ (runCommand c s).events
end

