-- ==== Sys2Proof/Laws/State.lean ====
section
/-! SUPPORT. One lemma per field per update of the state, so that no later proof unfolds a record update. -/

namespace Sys2Proof.Machine

variable (s : State)

/-! ### `setP` -/

@[simp] theorem setP_a (v : Byte) : (s.setP v).a = s.a := rfl
@[simp] theorem setP_x (v : Byte) : (s.setP v).x = s.x := rfl
@[simp] theorem setP_y (v : Byte) : (s.setP v).y = s.y := rfl
@[simp] theorem setP_sp (v : Byte) : (s.setP v).sp = s.sp := rfl
@[simp] theorem setP_p (v : Byte) : (s.setP v).p = v := rfl
@[simp] theorem setP_pc (v : Byte) : (s.setP v).pc = s.pc := rfl
@[simp] theorem setP_cyc (v : Byte) : (s.setP v).cyc = s.cyc := rfl
@[simp] theorem setP_life (v : Byte) : (s.setP v).life = s.life := rfl
@[simp] theorem setP_mappings (v : Byte) : (s.setP v).mappings = s.mappings := rfl
@[simp] theorem setP_devices (v : Byte) : (s.setP v).devices = s.devices := rfl
@[simp] theorem setP_diag (v : Byte) : (s.setP v).diag = s.diag := rfl
@[simp] theorem setP_trace (v : Byte) : (s.setP v).trace = s.trace := rfl
@[simp] theorem setP_draws (v : Byte) : (s.setP v).draws = s.draws := rfl
@[simp] theorem setP_assemblyFailed (v : Byte) : (s.setP v).assemblyFailed = s.assemblyFailed := rfl

/-! ### `setSp` -/

@[simp] theorem setSp_a (v : Byte) : (s.setSp v).a = s.a := rfl
@[simp] theorem setSp_x (v : Byte) : (s.setSp v).x = s.x := rfl
@[simp] theorem setSp_y (v : Byte) : (s.setSp v).y = s.y := rfl
@[simp] theorem setSp_sp (v : Byte) : (s.setSp v).sp = v := rfl
@[simp] theorem setSp_p (v : Byte) : (s.setSp v).p = s.p := rfl
@[simp] theorem setSp_pc (v : Byte) : (s.setSp v).pc = s.pc := rfl
@[simp] theorem setSp_cyc (v : Byte) : (s.setSp v).cyc = s.cyc := rfl
@[simp] theorem setSp_life (v : Byte) : (s.setSp v).life = s.life := rfl
@[simp] theorem setSp_mappings (v : Byte) : (s.setSp v).mappings = s.mappings := rfl
@[simp] theorem setSp_devices (v : Byte) : (s.setSp v).devices = s.devices := rfl
@[simp] theorem setSp_diag (v : Byte) : (s.setSp v).diag = s.diag := rfl
@[simp] theorem setSp_trace (v : Byte) : (s.setSp v).trace = s.trace := rfl
@[simp] theorem setSp_draws (v : Byte) : (s.setSp v).draws = s.draws := rfl
@[simp] theorem setSp_assemblyFailed (v : Byte) : (s.setSp v).assemblyFailed = s.assemblyFailed := rfl

/-! ### `setPc` -/

@[simp] theorem setPc_a (t : Addr) : (s.setPc t).a = s.a := rfl
@[simp] theorem setPc_x (t : Addr) : (s.setPc t).x = s.x := rfl
@[simp] theorem setPc_y (t : Addr) : (s.setPc t).y = s.y := rfl
@[simp] theorem setPc_sp (t : Addr) : (s.setPc t).sp = s.sp := rfl
@[simp] theorem setPc_p (t : Addr) : (s.setPc t).p = s.p := rfl
@[simp] theorem setPc_pc (t : Addr) : (s.setPc t).pc = t := rfl
@[simp] theorem setPc_cyc (t : Addr) : (s.setPc t).cyc = s.cyc := rfl
@[simp] theorem setPc_life (t : Addr) : (s.setPc t).life = s.life := rfl
@[simp] theorem setPc_mappings (t : Addr) : (s.setPc t).mappings = s.mappings := rfl
@[simp] theorem setPc_devices (t : Addr) : (s.setPc t).devices = s.devices := rfl
@[simp] theorem setPc_diag (t : Addr) : (s.setPc t).diag = s.diag := rfl
@[simp] theorem setPc_trace (t : Addr) : (s.setPc t).trace = s.trace := rfl
@[simp] theorem setPc_draws (t : Addr) : (s.setPc t).draws = s.draws := rfl
@[simp] theorem setPc_assemblyFailed (t : Addr) : (s.setPc t).assemblyFailed = s.assemblyFailed := rfl

/-! ### `addCycles` -/

@[simp] theorem addCycles_a (n : Nat) : (s.addCycles n).a = s.a := rfl
@[simp] theorem addCycles_x (n : Nat) : (s.addCycles n).x = s.x := rfl
@[simp] theorem addCycles_y (n : Nat) : (s.addCycles n).y = s.y := rfl
@[simp] theorem addCycles_sp (n : Nat) : (s.addCycles n).sp = s.sp := rfl
@[simp] theorem addCycles_p (n : Nat) : (s.addCycles n).p = s.p := rfl
@[simp] theorem addCycles_pc (n : Nat) : (s.addCycles n).pc = s.pc := rfl
@[simp] theorem addCycles_cyc (n : Nat) : (s.addCycles n).cyc = s.cyc + n := rfl
@[simp] theorem addCycles_life (n : Nat) : (s.addCycles n).life = s.life := rfl
@[simp] theorem addCycles_mappings (n : Nat) : (s.addCycles n).mappings = s.mappings := rfl
@[simp] theorem addCycles_devices (n : Nat) : (s.addCycles n).devices = s.devices := rfl
@[simp] theorem addCycles_diag (n : Nat) : (s.addCycles n).diag = s.diag := rfl
@[simp] theorem addCycles_trace (n : Nat) : (s.addCycles n).trace = s.trace := rfl
@[simp] theorem addCycles_draws (n : Nat) : (s.addCycles n).draws = s.draws := rfl
@[simp] theorem addCycles_assemblyFailed (n : Nat) : (s.addCycles n).assemblyFailed = s.assemblyFailed := rfl

/-! ### `setLife` -/

@[simp] theorem setLife_a (l : Life) : (s.setLife l).a = s.a := rfl
@[simp] theorem setLife_x (l : Life) : (s.setLife l).x = s.x := rfl
@[simp] theorem setLife_y (l : Life) : (s.setLife l).y = s.y := rfl
@[simp] theorem setLife_sp (l : Life) : (s.setLife l).sp = s.sp := rfl
@[simp] theorem setLife_p (l : Life) : (s.setLife l).p = s.p := rfl
@[simp] theorem setLife_pc (l : Life) : (s.setLife l).pc = s.pc := rfl
@[simp] theorem setLife_cyc (l : Life) : (s.setLife l).cyc = s.cyc := rfl
@[simp] theorem setLife_life (l : Life) : (s.setLife l).life = l := rfl
@[simp] theorem setLife_mappings (l : Life) : (s.setLife l).mappings = s.mappings := rfl
@[simp] theorem setLife_devices (l : Life) : (s.setLife l).devices = s.devices := rfl
@[simp] theorem setLife_diag (l : Life) : (s.setLife l).diag = s.diag := rfl
@[simp] theorem setLife_trace (l : Life) : (s.setLife l).trace = s.trace := rfl
@[simp] theorem setLife_draws (l : Life) : (s.setLife l).draws = s.draws := rfl
@[simp] theorem setLife_assemblyFailed (l : Life) : (s.setLife l).assemblyFailed = s.assemblyFailed := rfl

/-! ### `logDiag` -/

@[simp] theorem logDiag_a (e : DiagEvent) : (s.logDiag e).a = s.a := rfl
@[simp] theorem logDiag_x (e : DiagEvent) : (s.logDiag e).x = s.x := rfl
@[simp] theorem logDiag_y (e : DiagEvent) : (s.logDiag e).y = s.y := rfl
@[simp] theorem logDiag_sp (e : DiagEvent) : (s.logDiag e).sp = s.sp := rfl
@[simp] theorem logDiag_p (e : DiagEvent) : (s.logDiag e).p = s.p := rfl
@[simp] theorem logDiag_pc (e : DiagEvent) : (s.logDiag e).pc = s.pc := rfl
@[simp] theorem logDiag_cyc (e : DiagEvent) : (s.logDiag e).cyc = s.cyc := rfl
@[simp] theorem logDiag_life (e : DiagEvent) : (s.logDiag e).life = s.life := rfl
@[simp] theorem logDiag_mappings (e : DiagEvent) : (s.logDiag e).mappings = s.mappings := rfl
@[simp] theorem logDiag_devices (e : DiagEvent) : (s.logDiag e).devices = s.devices := rfl
@[simp] theorem logDiag_diag (e : DiagEvent) : (s.logDiag e).diag = s.diag ++ [e] := rfl
@[simp] theorem logDiag_trace (e : DiagEvent) : (s.logDiag e).trace = s.trace := rfl
@[simp] theorem logDiag_draws (e : DiagEvent) : (s.logDiag e).draws = s.draws := rfl
@[simp] theorem logDiag_assemblyFailed (e : DiagEvent) : (s.logDiag e).assemblyFailed = s.assemblyFailed := rfl

/-! ### `note` -/

@[simp] theorem note_a (e : BusEvent) : (s.note e).a = s.a := rfl
@[simp] theorem note_x (e : BusEvent) : (s.note e).x = s.x := rfl
@[simp] theorem note_y (e : BusEvent) : (s.note e).y = s.y := rfl
@[simp] theorem note_sp (e : BusEvent) : (s.note e).sp = s.sp := rfl
@[simp] theorem note_p (e : BusEvent) : (s.note e).p = s.p := rfl
@[simp] theorem note_pc (e : BusEvent) : (s.note e).pc = s.pc := rfl
@[simp] theorem note_cyc (e : BusEvent) : (s.note e).cyc = s.cyc := rfl
@[simp] theorem note_life (e : BusEvent) : (s.note e).life = s.life := rfl
@[simp] theorem note_mappings (e : BusEvent) : (s.note e).mappings = s.mappings := rfl
@[simp] theorem note_devices (e : BusEvent) : (s.note e).devices = s.devices := rfl
@[simp] theorem note_diag (e : BusEvent) : (s.note e).diag = s.diag := rfl
@[simp] theorem note_trace (e : BusEvent) : (s.note e).trace = e :: s.trace := rfl
@[simp] theorem note_draws (e : BusEvent) : (s.note e).draws = s.draws := rfl
@[simp] theorem note_assemblyFailed (e : BusEvent) : (s.note e).assemblyFailed = s.assemblyFailed := rfl

/-! ### `nextDraw` -/

@[simp] theorem nextDraw_a : (s.nextDraw).a = s.a := rfl
@[simp] theorem nextDraw_x : (s.nextDraw).x = s.x := rfl
@[simp] theorem nextDraw_y : (s.nextDraw).y = s.y := rfl
@[simp] theorem nextDraw_sp : (s.nextDraw).sp = s.sp := rfl
@[simp] theorem nextDraw_p : (s.nextDraw).p = s.p := rfl
@[simp] theorem nextDraw_pc : (s.nextDraw).pc = s.pc := rfl
@[simp] theorem nextDraw_cyc : (s.nextDraw).cyc = s.cyc := rfl
@[simp] theorem nextDraw_life : (s.nextDraw).life = s.life := rfl
@[simp] theorem nextDraw_mappings : (s.nextDraw).mappings = s.mappings := rfl
@[simp] theorem nextDraw_devices : (s.nextDraw).devices = s.devices := rfl
@[simp] theorem nextDraw_diag : (s.nextDraw).diag = s.diag := rfl
@[simp] theorem nextDraw_trace : (s.nextDraw).trace = s.trace := rfl
@[simp] theorem nextDraw_draws : (s.nextDraw).draws = s.draws + 1 := rfl
@[simp] theorem nextDraw_assemblyFailed : (s.nextDraw).assemblyFailed = s.assemblyFailed := rfl

/-! ### `setDevice` -/

@[simp] theorem setDevice_a (i : Nat) (d : Device) : (s.setDevice i d).a = s.a := rfl
@[simp] theorem setDevice_x (i : Nat) (d : Device) : (s.setDevice i d).x = s.x := rfl
@[simp] theorem setDevice_y (i : Nat) (d : Device) : (s.setDevice i d).y = s.y := rfl
@[simp] theorem setDevice_sp (i : Nat) (d : Device) : (s.setDevice i d).sp = s.sp := rfl
@[simp] theorem setDevice_p (i : Nat) (d : Device) : (s.setDevice i d).p = s.p := rfl
@[simp] theorem setDevice_pc (i : Nat) (d : Device) : (s.setDevice i d).pc = s.pc := rfl
@[simp] theorem setDevice_cyc (i : Nat) (d : Device) : (s.setDevice i d).cyc = s.cyc := rfl
@[simp] theorem setDevice_life (i : Nat) (d : Device) : (s.setDevice i d).life = s.life := rfl
@[simp] theorem setDevice_mappings (i : Nat) (d : Device) : (s.setDevice i d).mappings = s.mappings := rfl
@[simp] theorem setDevice_devices (i : Nat) (d : Device) : (s.setDevice i d).devices = s.devices.set i d := rfl
@[simp] theorem setDevice_diag (i : Nat) (d : Device) : (s.setDevice i d).diag = s.diag := rfl
@[simp] theorem setDevice_trace (i : Nat) (d : Device) : (s.setDevice i d).trace = s.trace := rfl
@[simp] theorem setDevice_draws (i : Nat) (d : Device) : (s.setDevice i d).draws = s.draws := rfl
@[simp] theorem setDevice_assemblyFailed (i : Nat) (d : Device) : (s.setDevice i d).assemblyFailed = s.assemblyFailed := rfl

/-! ### `halt` -/

@[simp] theorem halt_a (f : Fault) : (s.halt f).a = s.a := rfl
@[simp] theorem halt_x (f : Fault) : (s.halt f).x = s.x := rfl
@[simp] theorem halt_y (f : Fault) : (s.halt f).y = s.y := rfl
@[simp] theorem halt_sp (f : Fault) : (s.halt f).sp = s.sp := rfl
@[simp] theorem halt_p (f : Fault) : (s.halt f).p = s.p := rfl
@[simp] theorem halt_pc (f : Fault) : (s.halt f).pc = s.pc := rfl
@[simp] theorem halt_cyc (f : Fault) : (s.halt f).cyc = s.cyc := rfl
@[simp] theorem halt_life (f : Fault) : (s.halt f).life = .haltedOnFault f := rfl
@[simp] theorem halt_mappings (f : Fault) : (s.halt f).mappings = s.mappings := rfl
@[simp] theorem halt_devices (f : Fault) : (s.halt f).devices = s.devices := rfl
@[simp] theorem halt_diag (f : Fault) : (s.halt f).diag = s.diag := rfl
@[simp] theorem halt_trace (f : Fault) : (s.halt f).trace = s.trace := rfl
@[simp] theorem halt_draws (f : Fault) : (s.halt f).draws = s.draws := rfl
@[simp] theorem halt_assemblyFailed (f : Fault) : (s.halt f).assemblyFailed = s.assemblyFailed := rfl

/-! ### `setFlag` -/

@[simp] theorem setFlag_a (f : Flag) (b : Bool) : (s.setFlag f b).a = s.a := rfl
@[simp] theorem setFlag_x (f : Flag) (b : Bool) : (s.setFlag f b).x = s.x := rfl
@[simp] theorem setFlag_y (f : Flag) (b : Bool) : (s.setFlag f b).y = s.y := rfl
@[simp] theorem setFlag_sp (f : Flag) (b : Bool) : (s.setFlag f b).sp = s.sp := rfl
@[simp] theorem setFlag_p (f : Flag) (b : Bool) : (s.setFlag f b).p = putFlag f b s.p := rfl
@[simp] theorem setFlag_pc (f : Flag) (b : Bool) : (s.setFlag f b).pc = s.pc := rfl
@[simp] theorem setFlag_cyc (f : Flag) (b : Bool) : (s.setFlag f b).cyc = s.cyc := rfl
@[simp] theorem setFlag_life (f : Flag) (b : Bool) : (s.setFlag f b).life = s.life := rfl
@[simp] theorem setFlag_mappings (f : Flag) (b : Bool) : (s.setFlag f b).mappings = s.mappings := rfl
@[simp] theorem setFlag_devices (f : Flag) (b : Bool) : (s.setFlag f b).devices = s.devices := rfl
@[simp] theorem setFlag_diag (f : Flag) (b : Bool) : (s.setFlag f b).diag = s.diag := rfl
@[simp] theorem setFlag_trace (f : Flag) (b : Bool) : (s.setFlag f b).trace = s.trace := rfl
@[simp] theorem setFlag_draws (f : Flag) (b : Bool) : (s.setFlag f b).draws = s.draws := rfl
@[simp] theorem setFlag_assemblyFailed (f : Flag) (b : Bool) : (s.setFlag f b).assemblyFailed = s.assemblyFailed := rfl

/-! ### `setReg` -/

@[simp] theorem setReg_sp (r : DataReg) (v : Byte) : (s.setReg r v).sp = s.sp := by cases r <;> rfl
@[simp] theorem setReg_p (r : DataReg) (v : Byte) : (s.setReg r v).p = s.p := by cases r <;> rfl
@[simp] theorem setReg_pc (r : DataReg) (v : Byte) : (s.setReg r v).pc = s.pc := by cases r <;> rfl
@[simp] theorem setReg_cyc (r : DataReg) (v : Byte) : (s.setReg r v).cyc = s.cyc := by cases r <;> rfl
@[simp] theorem setReg_life (r : DataReg) (v : Byte) : (s.setReg r v).life = s.life := by cases r <;> rfl
@[simp] theorem setReg_mappings (r : DataReg) (v : Byte) : (s.setReg r v).mappings = s.mappings := by cases r <;> rfl
@[simp] theorem setReg_devices (r : DataReg) (v : Byte) : (s.setReg r v).devices = s.devices := by cases r <;> rfl
@[simp] theorem setReg_diag (r : DataReg) (v : Byte) : (s.setReg r v).diag = s.diag := by cases r <;> rfl
@[simp] theorem setReg_trace (r : DataReg) (v : Byte) : (s.setReg r v).trace = s.trace := by cases r <;> rfl
@[simp] theorem setReg_draws (r : DataReg) (v : Byte) : (s.setReg r v).draws = s.draws := by cases r <;> rfl
@[simp] theorem setReg_assemblyFailed (r : DataReg) (v : Byte) : (s.setReg r v).assemblyFailed = s.assemblyFailed := by cases r <;> rfl
@[simp] theorem setReg_reg_self (r : DataReg) (v : Byte) : (s.setReg r v).reg r = v := by cases r <;> rfl
theorem setReg_reg_of_ne {q r : DataReg} (v : Byte) (h : q ≠ r) : (s.setReg r v).reg q = s.reg q := by
  cases q <;> cases r <;> first | rfl | exact absurd rfl h

/-! ### `setLoadFlags` -/

@[simp] theorem setLoadFlags_a (v : Byte) : (s.setLoadFlags v).a = s.a := rfl
@[simp] theorem setLoadFlags_x (v : Byte) : (s.setLoadFlags v).x = s.x := rfl
@[simp] theorem setLoadFlags_y (v : Byte) : (s.setLoadFlags v).y = s.y := rfl
@[simp] theorem setLoadFlags_sp (v : Byte) : (s.setLoadFlags v).sp = s.sp := rfl
@[simp] theorem setLoadFlags_pc (v : Byte) : (s.setLoadFlags v).pc = s.pc := rfl
@[simp] theorem setLoadFlags_cyc (v : Byte) : (s.setLoadFlags v).cyc = s.cyc := rfl
@[simp] theorem setLoadFlags_life (v : Byte) : (s.setLoadFlags v).life = s.life := rfl
@[simp] theorem setLoadFlags_mappings (v : Byte) : (s.setLoadFlags v).mappings = s.mappings := rfl
@[simp] theorem setLoadFlags_devices (v : Byte) : (s.setLoadFlags v).devices = s.devices := rfl
@[simp] theorem setLoadFlags_diag (v : Byte) : (s.setLoadFlags v).diag = s.diag := rfl
@[simp] theorem setLoadFlags_trace (v : Byte) : (s.setLoadFlags v).trace = s.trace := rfl
@[simp] theorem setLoadFlags_draws (v : Byte) : (s.setLoadFlags v).draws = s.draws := rfl
@[simp] theorem setLoadFlags_assemblyFailed (v : Byte) : (s.setLoadFlags v).assemblyFailed = s.assemblyFailed := rfl

/-! ### `failAssembly` -/

@[simp] theorem failAssembly_a : (s.failAssembly).a = s.a := rfl
@[simp] theorem failAssembly_x : (s.failAssembly).x = s.x := rfl
@[simp] theorem failAssembly_y : (s.failAssembly).y = s.y := rfl
@[simp] theorem failAssembly_sp : (s.failAssembly).sp = s.sp := rfl
@[simp] theorem failAssembly_p : (s.failAssembly).p = s.p := rfl
@[simp] theorem failAssembly_pc : (s.failAssembly).pc = s.pc := rfl
@[simp] theorem failAssembly_cyc : (s.failAssembly).cyc = s.cyc := rfl
@[simp] theorem failAssembly_life : (s.failAssembly).life = s.life := rfl
@[simp] theorem failAssembly_mappings : (s.failAssembly).mappings = s.mappings := rfl
@[simp] theorem failAssembly_devices : (s.failAssembly).devices = s.devices := rfl
@[simp] theorem failAssembly_diag : (s.failAssembly).diag = s.diag := rfl
@[simp] theorem failAssembly_trace : (s.failAssembly).trace = s.trace := rfl
@[simp] theorem failAssembly_draws : (s.failAssembly).draws = s.draws := rfl
@[simp] theorem failAssembly_assemblyFailed : (s.failAssembly).assemblyFailed = true := rfl

/-! ### Reading a register or a device after an update of something else -/

@[simp] theorem failAssembly_reg (r : DataReg) : (s.failAssembly).reg r = s.reg r := by cases r <;> rfl
@[simp] theorem failAssembly_locate (k : Addr) : (s.failAssembly).locate k = s.locate k := rfl
@[simp] theorem failAssembly_cellOf (k : Addr) : (s.failAssembly).cellOf k = s.cellOf k := rfl
@[simp] theorem failAssembly_peek (k : Addr) : (s.failAssembly).peek k = s.peek k := rfl
@[simp] theorem failAssembly_byteAt (c : Nat × Nat) : (s.failAssembly).byteAt c = s.byteAt c := rfl
@[simp] theorem setP_reg (v : Byte) (r : DataReg) : (s.setP v).reg r = s.reg r := by cases r <;> rfl
@[simp] theorem setSp_reg (v : Byte) (r : DataReg) : (s.setSp v).reg r = s.reg r := by cases r <;> rfl
@[simp] theorem setPc_reg (t : Addr) (r : DataReg) : (s.setPc t).reg r = s.reg r := by cases r <;> rfl
@[simp] theorem addCycles_reg (n : Nat) (r : DataReg) : (s.addCycles n).reg r = s.reg r := by cases r <;> rfl
@[simp] theorem setLife_reg (l : Life) (r : DataReg) : (s.setLife l).reg r = s.reg r := by cases r <;> rfl
@[simp] theorem logDiag_reg (e : DiagEvent) (r : DataReg) : (s.logDiag e).reg r = s.reg r := by cases r <;> rfl
@[simp] theorem note_reg (e : BusEvent) (r : DataReg) : (s.note e).reg r = s.reg r := by cases r <;> rfl
@[simp] theorem nextDraw_reg (r : DataReg) : (s.nextDraw).reg r = s.reg r := by cases r <;> rfl
@[simp] theorem setDevice_reg (i : Nat) (d : Device) (r : DataReg) : (s.setDevice i d).reg r = s.reg r := by cases r <;> rfl
@[simp] theorem halt_reg (f : Fault) (r : DataReg) : (s.halt f).reg r = s.reg r := by cases r <;> rfl
@[simp] theorem setFlag_reg (f : Flag) (b : Bool) (r : DataReg) : (s.setFlag f b).reg r = s.reg r := by cases r <;> rfl
@[simp] theorem setLoadFlags_reg (v : Byte) (r : DataReg) : (s.setLoadFlags v).reg r = s.reg r := by cases r <;> rfl
@[simp] theorem setP_locate (v : Byte) (k : Addr) : (s.setP v).locate k = s.locate k := rfl
@[simp] theorem setP_cellOf (v : Byte) (k : Addr) : (s.setP v).cellOf k = s.cellOf k := rfl
@[simp] theorem setP_peek (v : Byte) (k : Addr) : (s.setP v).peek k = s.peek k := rfl
@[simp] theorem setP_byteAt (v : Byte) (c : Nat × Nat) : (s.setP v).byteAt c = s.byteAt c := rfl
@[simp] theorem setSp_locate (v : Byte) (k : Addr) : (s.setSp v).locate k = s.locate k := rfl
@[simp] theorem setSp_cellOf (v : Byte) (k : Addr) : (s.setSp v).cellOf k = s.cellOf k := rfl
@[simp] theorem setSp_peek (v : Byte) (k : Addr) : (s.setSp v).peek k = s.peek k := rfl
@[simp] theorem setSp_byteAt (v : Byte) (c : Nat × Nat) : (s.setSp v).byteAt c = s.byteAt c := rfl
@[simp] theorem setPc_locate (t : Addr) (k : Addr) : (s.setPc t).locate k = s.locate k := rfl
@[simp] theorem setPc_cellOf (t : Addr) (k : Addr) : (s.setPc t).cellOf k = s.cellOf k := rfl
@[simp] theorem setPc_peek (t : Addr) (k : Addr) : (s.setPc t).peek k = s.peek k := rfl
@[simp] theorem setPc_byteAt (t : Addr) (c : Nat × Nat) : (s.setPc t).byteAt c = s.byteAt c := rfl
@[simp] theorem addCycles_locate (n : Nat) (k : Addr) : (s.addCycles n).locate k = s.locate k := rfl
@[simp] theorem addCycles_cellOf (n : Nat) (k : Addr) : (s.addCycles n).cellOf k = s.cellOf k := rfl
@[simp] theorem addCycles_peek (n : Nat) (k : Addr) : (s.addCycles n).peek k = s.peek k := rfl
@[simp] theorem addCycles_byteAt (n : Nat) (c : Nat × Nat) : (s.addCycles n).byteAt c = s.byteAt c := rfl
@[simp] theorem setLife_locate (l : Life) (k : Addr) : (s.setLife l).locate k = s.locate k := rfl
@[simp] theorem setLife_cellOf (l : Life) (k : Addr) : (s.setLife l).cellOf k = s.cellOf k := rfl
@[simp] theorem setLife_peek (l : Life) (k : Addr) : (s.setLife l).peek k = s.peek k := rfl
@[simp] theorem setLife_byteAt (l : Life) (c : Nat × Nat) : (s.setLife l).byteAt c = s.byteAt c := rfl
@[simp] theorem logDiag_locate (e : DiagEvent) (k : Addr) : (s.logDiag e).locate k = s.locate k := rfl
@[simp] theorem logDiag_cellOf (e : DiagEvent) (k : Addr) : (s.logDiag e).cellOf k = s.cellOf k := rfl
@[simp] theorem logDiag_peek (e : DiagEvent) (k : Addr) : (s.logDiag e).peek k = s.peek k := rfl
@[simp] theorem logDiag_byteAt (e : DiagEvent) (c : Nat × Nat) : (s.logDiag e).byteAt c = s.byteAt c := rfl
@[simp] theorem note_locate (e : BusEvent) (k : Addr) : (s.note e).locate k = s.locate k := rfl
@[simp] theorem note_cellOf (e : BusEvent) (k : Addr) : (s.note e).cellOf k = s.cellOf k := rfl
@[simp] theorem note_peek (e : BusEvent) (k : Addr) : (s.note e).peek k = s.peek k := rfl
@[simp] theorem note_byteAt (e : BusEvent) (c : Nat × Nat) : (s.note e).byteAt c = s.byteAt c := rfl
@[simp] theorem nextDraw_locate (k : Addr) : (s.nextDraw).locate k = s.locate k := rfl
@[simp] theorem nextDraw_cellOf (k : Addr) : (s.nextDraw).cellOf k = s.cellOf k := rfl
@[simp] theorem nextDraw_peek (k : Addr) : (s.nextDraw).peek k = s.peek k := rfl
@[simp] theorem nextDraw_byteAt (c : Nat × Nat) : (s.nextDraw).byteAt c = s.byteAt c := rfl
@[simp] theorem halt_locate (f : Fault) (k : Addr) : (s.halt f).locate k = s.locate k := rfl
@[simp] theorem halt_cellOf (f : Fault) (k : Addr) : (s.halt f).cellOf k = s.cellOf k := rfl
@[simp] theorem halt_peek (f : Fault) (k : Addr) : (s.halt f).peek k = s.peek k := rfl
@[simp] theorem halt_byteAt (f : Fault) (c : Nat × Nat) : (s.halt f).byteAt c = s.byteAt c := rfl
@[simp] theorem setFlag_locate (f : Flag) (b : Bool) (k : Addr) : (s.setFlag f b).locate k = s.locate k := rfl
@[simp] theorem setFlag_cellOf (f : Flag) (b : Bool) (k : Addr) : (s.setFlag f b).cellOf k = s.cellOf k := rfl
@[simp] theorem setFlag_peek (f : Flag) (b : Bool) (k : Addr) : (s.setFlag f b).peek k = s.peek k := rfl
@[simp] theorem setFlag_byteAt (f : Flag) (b : Bool) (c : Nat × Nat) : (s.setFlag f b).byteAt c = s.byteAt c := rfl
@[simp] theorem setLoadFlags_locate (v : Byte) (k : Addr) : (s.setLoadFlags v).locate k = s.locate k := rfl
@[simp] theorem setLoadFlags_cellOf (v : Byte) (k : Addr) : (s.setLoadFlags v).cellOf k = s.cellOf k := rfl
@[simp] theorem setLoadFlags_peek (v : Byte) (k : Addr) : (s.setLoadFlags v).peek k = s.peek k := rfl
@[simp] theorem setLoadFlags_byteAt (v : Byte) (c : Nat × Nat) : (s.setLoadFlags v).byteAt c = s.byteAt c := rfl
@[simp] theorem setReg_locate (r : DataReg) (v : Byte) (k : Addr) : (s.setReg r v).locate k = s.locate k := by cases r <;> rfl
@[simp] theorem setReg_cellOf (r : DataReg) (v : Byte) (k : Addr) : (s.setReg r v).cellOf k = s.cellOf k := by cases r <;> rfl
@[simp] theorem setReg_peek (r : DataReg) (v : Byte) (k : Addr) : (s.setReg r v).peek k = s.peek k := by cases r <;> rfl
@[simp] theorem setReg_byteAt (r : DataReg) (v : Byte) (c : Nat × Nat) : (s.setReg r v).byteAt c = s.byteAt c := by cases r <;> rfl

end Sys2Proof.Machine
end

