-- ==== Sys2Proof/Laws/Memory.lean ====
section
/-! SUPPORT. The bytes of a memory block: a read after a write, and that every write keeps the canonical form. -/

namespace Sys2Proof.Machine

/-- Offsets below every listed one are unlisted. -/
theorem Memory.read_of_all_lt {m : Memory} {k : Nat} (h : m.all (fun c => decide (k < c.1)) = true) :
    Memory.read m k = unlistedByte := by
  induction m with
  | nil => rfl
  | cons c m ih =>
    obtain ⟨j, v⟩ := c
    simp only [List.all_cons, Bool.and_eq_true, decide_eq_true_eq] at h
    have hne : j ≠ k := by omega
    simp [Memory.read, hne, ih h.2]

theorem Memory.read_cell_of_ne {m : Memory} {j k : Nat} (v : Byte) (h : k ≠ j) :
    Memory.read (Memory.cell j v m) k = Memory.read m k := by
  unfold Memory.cell
  split
  · rfl
  · simp [Memory.read, Ne.symm h]

theorem Memory.read_cell_self {m : Memory} {k : Nat} (v : Byte) (h : m.all (fun c => decide (k < c.1)) = true) :
    Memory.read (Memory.cell k v m) k = v := by
  unfold Memory.cell
  split
  · next hv => rw [Memory.read_of_all_lt h, hv]
  · simp [Memory.read]

/-- A write leaves every other offset alone (20_memory.md R50). -/
theorem Memory.read_write_of_ne (m : Memory) {j k : Nat} (v : Byte) (h : k ≠ j) :
    Memory.read (Memory.write m j v) k = Memory.read m k := by
  induction m with
  | nil => exact Memory.read_cell_of_ne v h
  | cons c m ih =>
    obtain ⟨i, w⟩ := c
    simp only [Memory.write]
    split
    · exact Memory.read_cell_of_ne v h
    · split
      · next hij => rw [Memory.read_cell_of_ne v h]; simp [Memory.read, ← hij, Ne.symm h]
      · simp [Memory.read, ih]

/-- The parts of the canonical form of a non-empty cell list. -/
theorem Memory.wf_cons {j : Nat} {v : Byte} {m : Memory} :
    Memory.wf ((j, v) :: m) = true ↔
      v ≠ unlistedByte ∧ m.all (fun c => decide (j < c.1)) = true ∧ Memory.wf m = true := by
  simp [Memory.wf, and_assoc]

/-- Below the first offset there is nothing. -/
theorem Memory.all_lt_of_wf {j k : Nat} {v : Byte} {m : Memory} (h : Memory.wf ((j, v) :: m) = true) (hk : k < j) :
    ((j, v) :: m).all (fun c => decide (k < c.1)) = true := by
  have h2 := (Memory.wf_cons.1 h).2.1
  simp only [List.all_eq_true, decide_eq_true_eq] at h2 ⊢
  intro c hc
  rcases List.mem_cons.1 hc with rfl | hc
  · exact hk
  · exact Nat.lt_trans hk (h2 c hc)

/-- A read after a write to the same offset gives the byte written (20_memory.md R50). -/
theorem Memory.read_write_self {m : Memory} (k : Nat) (v : Byte) (h : Memory.wf m = true) :
    Memory.read (Memory.write m k v) k = v := by
  induction m with
  | nil => exact Memory.read_cell_self v rfl
  | cons c m ih =>
    obtain ⟨j, w⟩ := c
    simp only [Memory.write]
    split
    · next hk => exact Memory.read_cell_self v (Memory.all_lt_of_wf h hk)
    · split
      · next hk => subst hk; exact Memory.read_cell_self v (Memory.wf_cons.1 h).2.1
      · next hk => simp [Memory.read, Ne.symm hk, ih (Memory.wf_cons.1 h).2.2]

/-- A bound on all offsets of `m` and on the offset written bounds all offsets after the write. -/
theorem Memory.all_write {m : Memory} {P : Host.Cell → Bool} {k : Nat} {v : Byte} (h : m.all P = true)
    (hk : P (k, v) = true) : (Memory.write m k v).all P = true := by
  induction m with
  | nil => unfold Memory.write Memory.cell; split <;> simp [hk]
  | cons c m ih =>
    obtain ⟨j, w⟩ := c
    simp only [List.all_cons, Bool.and_eq_true] at h
    simp only [Memory.write, Memory.cell]
    split
    · split <;> simp [h.1, h.2, hk]
    · split
      · split <;> simp [h.2, hk]
      · simp [h.1, ih h.2]

theorem Memory.wf_cell {k : Nat} {v : Byte} {m : Memory} (hm : Memory.wf m = true)
    (h : m.all (fun c => decide (k < c.1)) = true) : Memory.wf (Memory.cell k v m) = true := by
  unfold Memory.cell
  split
  · exact hm
  · next hv => exact Memory.wf_cons.2 ⟨hv, h, hm⟩

/-- A write keeps the canonical form. -/
theorem Memory.wf_write {m : Memory} (k : Nat) (v : Byte) (h : Memory.wf m = true) :
    Memory.wf (Memory.write m k v) = true := by
  induction m with
  | nil => exact Memory.wf_cell rfl rfl
  | cons c m ih =>
    obtain ⟨j, w⟩ := c
    have hc := Memory.wf_cons.1 h
    simp only [Memory.write]
    split
    · next hk => exact Memory.wf_cell h (Memory.all_lt_of_wf h hk)
    · split
      · next hk => subst hk; exact Memory.wf_cell hc.2.2 hc.2.1
      · next h1 h2 =>
        refine Memory.wf_cons.2 ⟨hc.1, ?_, ih hc.2.2⟩
        exact Memory.all_write hc.2.1 (by simp only [decide_eq_true_eq]; omega)

/-- Two canonical memories that read alike at every offset are equal. -/
theorem Memory.ext_of_wf {m n : Memory} (hm : Memory.wf m = true) (hn : Memory.wf n = true)
    (h : ∀ k, Memory.read m k = Memory.read n k) : m = n := by
  induction m generalizing n with
  | nil =>
    cases n with
    | nil => rfl
    | cons c n =>
      obtain ⟨j, v⟩ := c
      have := h j
      simp only [Memory.read, if_pos] at this
      exact absurd this.symm (Memory.wf_cons.1 hn).1
  | cons c m ih =>
    obtain ⟨j, v⟩ := c
    have hc := Memory.wf_cons.1 hm
    cases n with
    | nil =>
      have := h j
      simp only [Memory.read, if_pos] at this
      exact absurd this hc.1
    | cons d n =>
      obtain ⟨i, w⟩ := d
      have hd := Memory.wf_cons.1 hn
      have hij : j = i := by
        rcases Nat.lt_trichotomy j i with hlt | heq | hgt
        · have h1 := h j
          rw [Memory.read_of_all_lt (Memory.all_lt_of_wf hn hlt)] at h1
          simp only [Memory.read, if_pos] at h1
          exact absurd h1 hc.1
        · exact heq
        · have h1 := h i
          rw [Memory.read_of_all_lt (Memory.all_lt_of_wf hm hgt)] at h1
          simp only [Memory.read, if_pos] at h1
          exact absurd h1.symm hd.1
      subst hij
      have hvw : v = w := by have := h j; simpa [Memory.read] using this
      subst hvw
      congr 1
      refine ih hc.2.2 hd.2.2 fun k => ?_
      by_cases hk : j = k
      · subst hk; rw [Memory.read_of_all_lt hc.2.1, Memory.read_of_all_lt hd.2.1]
      · have := h k; simpa [Memory.read, hk] using this

end Sys2Proof.Machine
end

