-- ==== Sys2Proof/Laws/Bus.lean ====
section
/-! SUPPORT. The bus: what a read and a write can do, said once each, and that both keep a sound state. -/

namespace Sys2Proof.Machine

/-! ### Lookup -/

theorem locate_eq_some {s : State} {a : Addr} {i : Nat} {d : Device} {off : Addr} :
    s.locate a = some (i, d, off) ↔
      ∃ m, s.lookup a = some m ∧ m.dev = i ∧ s.devices[i]? = some d ∧ a - m.low = off := by
  unfold State.locate
  cases hl : s.lookup a with
  | none => simp
  | some m =>
    simp only [Option.some.injEq, exists_eq_left']
    constructor
    · intro h
      cases hd : s.devices[m.dev]? with
      | none => simp [hd] at h
      | some e =>
        simp only [hd, Option.some.injEq, Prod.mk.injEq] at h
        obtain ⟨rfl, rfl, rfl⟩ := h
        exact ⟨rfl, hd, rfl⟩
    · rintro ⟨rfl, hd, rfl⟩
      simp [hd]

/-- The device that `locate` answers stands at the place it answers. -/
theorem device_of_locate {s : State} {a : Addr} {i : Nat} {d : Device} {off : Addr}
    (h : s.locate a = some (i, d, off)) : s.devices[i]? = some d := by
  obtain ⟨m, -, -, hd, -⟩ := locate_eq_some.1 h; exact hd

/-- An address no mapping owns is located nowhere. -/
theorem locate_of_lookup_none {s : State} {a : Addr} (h : s.lookup a = none) : s.locate a = none := by
  simp [State.locate, h]

/-- The length of a memory block, none for any other device. -/
def Device.blockLen (d : Device) : Option Nat :=
  match d.kind with
  | .block _ len _ => some len
  | _ => none

theorem cellOf_eq (s : State) (a : Addr) :
    s.cellOf a = (s.locate a).bind fun l => l.2.1.blockLen.map fun len => (l.1, l.2.2.toNat % len) := by
  unfold State.cellOf
  rcases s.locate a with _ | ⟨i, ⟨n, k⟩, off⟩
  · rfl
  · cases k <;> rfl

/-- Replacing a device by one of the same block length leaves every address at the byte it reached. -/
theorem setDevice_cellOf {s : State} {i : Nat} {d e : Device} (hd : s.devices[i]? = some d)
    (h : e.blockLen = d.blockLen) (a : Addr) : (s.setDevice i e).cellOf a = s.cellOf a := by
  rw [cellOf_eq, cellOf_eq]
  unfold State.locate State.lookup
  simp only [setDevice_mappings, setDevice_devices]
  cases s.mappings.find? (·.owns a) with
  | none => rfl
  | some m =>
    simp only [List.getElem?_set]
    by_cases hi : i = m.dev
    · subst hi
      have hlt : m.dev < s.devices.length := (List.getElem?_eq_some_iff.1 hd).1
      rw [if_pos rfl, if_pos hlt, hd]
      simp [h]
    · simp [hi]

/-- Replacing a device leaves the bytes of every other device. -/
theorem setDevice_byteAt_of_ne {s : State} {i : Nat} (e : Device) {c : Nat × Nat} (h : c.1 ≠ i) :
    (s.setDevice i e).byteAt c = s.byteAt c := by
  simp [State.byteAt, Ne.symm h]

/-- Replacing a device that is no block by another leaves every block byte. -/
theorem setDevice_byteAt_of_not_block {s : State} {i : Nat} {d e : Device} (hd : s.devices[i]? = some d)
    (h : d.blockLen = none) (he : e.blockLen = none) (c : Nat × Nat) : (s.setDevice i e).byteAt c = s.byteAt c := by
  by_cases hc : c.1 = i
  · subst hc
    have hlt : c.1 < s.devices.length := (List.getElem?_eq_some_iff.1 hd).1
    obtain ⟨n, k⟩ := d; obtain ⟨n', k'⟩ := e
    cases k <;> cases k' <;> simp_all [State.byteAt, Device.blockLen]
  · exact setDevice_byteAt_of_ne e hc

theorem peek_congr {s t : State} (hc : ∀ a, t.cellOf a = s.cellOf a) (hb : ∀ c, t.byteAt c = s.byteAt c) (a : Addr) :
    t.peek a = s.peek a := by
  simp [State.peek, hc, funext hb]

/-! ### The bus read -/

/-- Everything a bus read can do: the read of an unmapped address, of a block, of a stub, of an external device. -/
theorem memRead_cases (s : State) (a : Addr) :
    (s.locate a = none ∧
      memRead s a = ((s.logDiag (.unmappedRead a)).note (.read a Config.unmappedReadValue), Config.unmappedReadValue)) ∨
    (∃ i n ro len cells off, s.locate a = some (i, ⟨n, .block ro len cells⟩, off) ∧
      memRead s a = (s.note (.read a (Memory.read cells (off.toNat % len))), Memory.read cells (off.toNat % len))) ∨
    (∃ i n off, s.locate a = some (i, ⟨n, .stub⟩, off) ∧
      memRead s a = (s.nextDraw.note (.read a (Config.draw s.draws)), Config.draw s.draws)) ∨
    (∃ i n id st off, s.locate a = some (i, ⟨n, .external id st⟩, off) ∧
      memRead s a = ((s.setDevice i ⟨n, .external id (Config.extRead id st off).1⟩).note
        (.read a (Config.extRead id st off).2), (Config.extRead id st off).2)) := by
  rcases h : s.locate a with _ | ⟨i, ⟨n, k⟩, off⟩
  · exact .inl ⟨rfl, by simp [memRead, h]⟩
  · cases k with
    | block ro len cells => exact .inr (.inl ⟨i, n, ro, len, cells, off, rfl, by simp [memRead, h, State.readDevice]⟩)
    | stub => exact .inr (.inr (.inl ⟨i, n, off, rfl, by simp [memRead, h, State.readDevice]⟩))
    | external id st => exact .inr (.inr (.inr ⟨i, n, id, st, off, rfl, by simp [memRead, h, State.readDevice]⟩))

section memReadFields

variable (s : State) (b : Addr)

@[simp] theorem memRead_a : (memRead s b).1.a = s.a := by
  rcases memRead_cases s b with ⟨-, h⟩ | ⟨_, _, _, _, _, _, -, h⟩ | ⟨_, _, _, -, h⟩ | ⟨_, _, _, _, _, -, h⟩ <;> simp [h]

@[simp] theorem memRead_x : (memRead s b).1.x = s.x := by
  rcases memRead_cases s b with ⟨-, h⟩ | ⟨_, _, _, _, _, _, -, h⟩ | ⟨_, _, _, -, h⟩ | ⟨_, _, _, _, _, -, h⟩ <;> simp [h]

@[simp] theorem memRead_y : (memRead s b).1.y = s.y := by
  rcases memRead_cases s b with ⟨-, h⟩ | ⟨_, _, _, _, _, _, -, h⟩ | ⟨_, _, _, -, h⟩ | ⟨_, _, _, _, _, -, h⟩ <;> simp [h]

@[simp] theorem memRead_sp : (memRead s b).1.sp = s.sp := by
  rcases memRead_cases s b with ⟨-, h⟩ | ⟨_, _, _, _, _, _, -, h⟩ | ⟨_, _, _, -, h⟩ | ⟨_, _, _, _, _, -, h⟩ <;> simp [h]

@[simp] theorem memRead_p : (memRead s b).1.p = s.p := by
  rcases memRead_cases s b with ⟨-, h⟩ | ⟨_, _, _, _, _, _, -, h⟩ | ⟨_, _, _, -, h⟩ | ⟨_, _, _, _, _, -, h⟩ <;> simp [h]

@[simp] theorem memRead_pc : (memRead s b).1.pc = s.pc := by
  rcases memRead_cases s b with ⟨-, h⟩ | ⟨_, _, _, _, _, _, -, h⟩ | ⟨_, _, _, -, h⟩ | ⟨_, _, _, _, _, -, h⟩ <;> simp [h]

@[simp] theorem memRead_cyc : (memRead s b).1.cyc = s.cyc := by
  rcases memRead_cases s b with ⟨-, h⟩ | ⟨_, _, _, _, _, _, -, h⟩ | ⟨_, _, _, -, h⟩ | ⟨_, _, _, _, _, -, h⟩ <;> simp [h]

@[simp] theorem memRead_life : (memRead s b).1.life = s.life := by
  rcases memRead_cases s b with ⟨-, h⟩ | ⟨_, _, _, _, _, _, -, h⟩ | ⟨_, _, _, -, h⟩ | ⟨_, _, _, _, _, -, h⟩ <;> simp [h]

@[simp] theorem memRead_mappings : (memRead s b).1.mappings = s.mappings := by
  rcases memRead_cases s b with ⟨-, h⟩ | ⟨_, _, _, _, _, _, -, h⟩ | ⟨_, _, _, -, h⟩ | ⟨_, _, _, _, _, -, h⟩ <;> simp [h]

@[simp] theorem memRead_assemblyFailed : (memRead s b).1.assemblyFailed = s.assemblyFailed := by
  rcases memRead_cases s b with ⟨-, h⟩ | ⟨_, _, _, _, _, _, -, h⟩ | ⟨_, _, _, -, h⟩ | ⟨_, _, _, _, _, -, h⟩ <;> simp [h]

@[simp] theorem memRead_trace : (memRead s b).1.trace = .read b (memRead s b).2 :: s.trace := by
  rcases memRead_cases s b with ⟨-, h⟩ | ⟨_, _, _, _, _, _, -, h⟩ | ⟨_, _, _, -, h⟩ | ⟨_, _, _, _, _, -, h⟩ <;> simp [h]

@[simp] theorem memRead_devices_length : (memRead s b).1.devices.length = s.devices.length := by
  rcases memRead_cases s b with ⟨-, h⟩ | ⟨_, _, _, _, _, _, -, h⟩ | ⟨_, _, _, -, h⟩ | ⟨_, _, _, _, _, -, h⟩ <;> simp [h]

@[simp] theorem memRead_reg (r : DataReg) : (memRead s b).1.reg r = s.reg r := by cases r <;> simp [State.reg]

@[simp] theorem memRead_flag (f : Flag) : (memRead s b).1.flag f = s.flag f := by simp [State.flag]

/-- A bus read leaves every address at the memory byte it reached. -/
@[simp] theorem memRead_cellOf (a : Addr) : (memRead s b).1.cellOf a = s.cellOf a := by
  rcases memRead_cases s b with ⟨-, h⟩ | ⟨_, _, _, _, _, _, -, h⟩ | ⟨_, _, _, -, h⟩ | ⟨_, _, _, _, _, hl, h⟩ <;> simp [h]
  exact setDevice_cellOf (device_of_locate hl) (by rfl) a

/-- A bus read leaves every memory byte (20_memory.md R49). -/
@[simp] theorem memRead_byteAt (c : Nat × Nat) : (memRead s b).1.byteAt c = s.byteAt c := by
  rcases memRead_cases s b with ⟨-, h⟩ | ⟨_, _, _, _, _, _, -, h⟩ | ⟨_, _, _, -, h⟩ | ⟨_, _, _, _, _, hl, h⟩ <;> simp [h]
  exact setDevice_byteAt_of_not_block (device_of_locate hl) (by rfl) (by rfl) c

@[simp] theorem memRead_peek (a : Addr) : (memRead s b).1.peek a = s.peek a :=
  peek_congr (memRead_cellOf s b) (memRead_byteAt s b) a

end memReadFields

/-- A bus read of an unmapped address (20_memory.md R47). -/
theorem memRead_of_unmapped {s : State} {a : Addr} (h : s.locate a = none) :
    memRead s a = ((s.logDiag (.unmappedRead a)).note (.read a Config.unmappedReadValue), Config.unmappedReadValue) := by
  simp [memRead, h]

/-- A bus read of a stub (20_memory.md R53). -/
theorem memRead_of_stub {s : State} {a : Addr} {i : Nat} {n : String} {off : Addr}
    (h : s.locate a = some (i, ⟨n, .stub⟩, off)) :
    memRead s a = (s.nextDraw.note (.read a (Config.draw s.draws)), Config.draw s.draws) := by
  simp [memRead, h, State.readDevice]

/-- The memory byte an address reaches, in terms of the block that owns it. -/
theorem peek_of_block {s : State} {a : Addr} {i : Nat} {n : String} {ro : Bool} {len : Nat} {cells : Memory} {off : Addr}
    (h : s.locate a = some (i, ⟨n, .block ro len cells⟩, off)) :
    s.peek a = some (Memory.read cells (off.toNat % len)) := by
  simp [State.peek, State.cellOf, State.byteAt, h, device_of_locate h]

/-- Where an address reaches a memory byte, a memory block owns it. -/
theorem block_of_cellOf {s : State} {a : Addr} {c : Nat × Nat} (h : s.cellOf a = some c) :
    ∃ n ro len cells off, s.locate a = some (c.1, ⟨n, .block ro len cells⟩, off) ∧ c.2 = off.toNat % len := by
  unfold State.cellOf at h
  rcases hl : s.locate a with _ | ⟨i, ⟨n, k⟩, off⟩
  · simp [hl] at h
  · cases k <;> simp [hl] at h
    next ro len cells => subst h; exact ⟨n, ro, len, cells, off, rfl, rfl⟩

/-- Where an address has a memory byte, it reaches one. -/
theorem cellOf_of_peek {s : State} {a : Addr} {v : Byte} (h : s.peek a = some v) :
    ∃ c, s.cellOf a = some c ∧ s.byteAt c = some v := Option.bind_eq_some_iff.1 h

/-- A bus read of a memory byte answers it and changes nothing but the model's own trace (20_memory.md R49). -/
theorem memRead_of_peek {s : State} {a : Addr} {v : Byte} (h : s.peek a = some v) :
    memRead s a = (s.note (.read a v), v) := by
  obtain ⟨c, hc, -⟩ := cellOf_of_peek h
  obtain ⟨n, ro, len, cells, off, hl, -⟩ := block_of_cellOf hc
  have hp := peek_of_block hl
  rw [h, Option.some.injEq] at hp
  simp [memRead, hl, State.readDevice, hp]

/-! ### The bus write -/

/-- Everything a bus write can do: the write to an unmapped address, to a read-only block, to a read-write block, to a
stub, to an external device. -/
theorem memWrite_cases (op : Option Byte) (s : State) (a : Addr) (v : Byte) :
    (s.locate a = none ∧ memWrite op s a v = .done ((s.logDiag (.unmappedWrite a v)).note (.write a v))) ∨
    (∃ i n len cells off, s.locate a = some (i, ⟨n, .block true len cells⟩, off) ∧
      memWrite op s a v = .raised (.deviceMisuse n a v op) (s.note (.writeFatal a v))) ∨
    (∃ i n len cells off, s.locate a = some (i, ⟨n, .block false len cells⟩, off) ∧
      memWrite op s a v = .done ((s.setDevice i ⟨n, .block false len (Memory.write cells (off.toNat % len) v)⟩).note
        (.write a v))) ∨
    (∃ i n off, s.locate a = some (i, ⟨n, .stub⟩, off) ∧ memWrite op s a v = .done (s.note (.write a v))) ∨
    (∃ i n id st off, s.locate a = some (i, ⟨n, .external id st⟩, off) ∧
      memWrite op s a v = .done ((s.setDevice i ⟨n, .external id (Config.extWrite id st off v)⟩).note (.write a v))) := by
  rcases h : s.locate a with _ | ⟨i, ⟨n, k⟩, off⟩
  · exact .inl ⟨rfl, by simp [memWrite, h]⟩
  · cases k with
    | block ro len cells =>
      cases ro with
      | true => exact .inr (.inl ⟨i, n, len, cells, off, rfl, by simp [memWrite, h]⟩)
      | false => exact .inr (.inr (.inl ⟨i, n, len, cells, off, rfl, by simp [memWrite, h]⟩))
    | stub => exact .inr (.inr (.inr (.inl ⟨i, n, off, rfl, by simp [memWrite, h]⟩)))
    | external id st => exact .inr (.inr (.inr (.inr ⟨i, n, id, st, off, rfl, by simp [memWrite, h]⟩)))

/-- A write that raised found a read-only block, and only the model's own trace differs (20_memory.md R51). -/
theorem memWrite_raised {op : Option Byte} {s t : State} {a : Addr} {v : Byte} {f : Fault}
    (h : memWrite op s a v = .raised f t) :
    ∃ i n len cells off, s.locate a = some (i, ⟨n, .block true len cells⟩, off) ∧
      f = .deviceMisuse n a v op ∧ t = s.note (.writeFatal a v) := by
  rcases memWrite_cases op s a v with ⟨-, e⟩ | ⟨i, n, len, cells, off, hl, e⟩ | ⟨_, _, _, _, _, -, e⟩ | ⟨_, _, _, -, e⟩ |
    ⟨_, _, _, _, _, -, e⟩ <;> rw [e] at h <;> cases h
  exact ⟨i, n, len, cells, off, hl, rfl, rfl⟩

/-- What a write that did not raise leaves of the state outside the bus, and its transaction. -/
structure WriteFrame (s : State) (addr : Addr) (v : Byte) (t : State) : Prop where
  a : t.a = s.a
  x : t.x = s.x
  y : t.y = s.y
  sp : t.sp = s.sp
  p : t.p = s.p
  pc : t.pc = s.pc
  cyc : t.cyc = s.cyc
  life : t.life = s.life
  mappings : t.mappings = s.mappings
  assemblyFailed : t.assemblyFailed = s.assemblyFailed
  draws : t.draws = s.draws
  trace : t.trace = .write addr v :: s.trace
  length : t.devices.length = s.devices.length
  cellOf : ∀ b, t.cellOf b = s.cellOf b

theorem memWrite_frame {op : Option Byte} {s t : State} {a : Addr} {v : Byte} (h : memWrite op s a v = .done t) :
    WriteFrame s a v t := by
  rcases memWrite_cases op s a v with ⟨-, e⟩ | ⟨_, _, _, _, _, -, e⟩ | ⟨_, _, _, _, _, hl, e⟩ | ⟨_, _, _, -, e⟩ |
    ⟨_, _, _, _, _, hl, e⟩ <;> rw [e] at h <;> cases h
  · exact ⟨rfl, rfl, rfl, rfl, rfl, rfl, rfl, rfl, rfl, rfl, rfl, rfl, rfl, fun _ => rfl⟩
  · exact ⟨rfl, rfl, rfl, rfl, rfl, rfl, rfl, rfl, rfl, rfl, rfl, rfl, by simp,
      fun b => by simpa using setDevice_cellOf (device_of_locate hl) (by rfl) b⟩
  · exact ⟨rfl, rfl, rfl, rfl, rfl, rfl, rfl, rfl, rfl, rfl, rfl, rfl, rfl, fun _ => rfl⟩
  · exact ⟨rfl, rfl, rfl, rfl, rfl, rfl, rfl, rfl, rfl, rfl, rfl, rfl, by simp,
      fun b => by simpa using setDevice_cellOf (device_of_locate hl) (by rfl) b⟩

/-- A write where no read-only block owns the address does not raise. -/
theorem memWrite_done_of_not_readOnly {s : State} {a : Addr} (op : Option Byte) (v : Byte) (h : s.readOnlyAt a = false) :
    ∃ t, memWrite op s a v = .done t := by
  rcases memWrite_cases op s a v with ⟨-, e⟩ | ⟨_, _, _, _, _, hl, -⟩ | ⟨_, _, _, _, _, -, e⟩ | ⟨_, _, _, -, e⟩ |
    ⟨_, _, _, _, _, -, e⟩
  · exact ⟨_, e⟩
  · simp [State.readOnlyAt, hl] at h
  · exact ⟨_, e⟩
  · exact ⟨_, e⟩
  · exact ⟨_, e⟩

/-- Where a read-only block owns the address, it is named. -/
theorem block_of_readOnlyAt {s : State} {a : Addr} (h : s.readOnlyAt a = true) :
    ∃ i n len cells off, s.locate a = some (i, ⟨n, .block true len cells⟩, off) := by
  unfold State.readOnlyAt at h
  rcases hl : s.locate a with _ | ⟨i, ⟨n, k⟩, off⟩
  · simp [hl] at h
  · rcases k with ⟨_ | _, len, cells⟩ | _ | _ <;> simp [hl] at h
    exact ⟨i, n, len, cells, off, rfl⟩

/-- A write to an address that reaches no memory byte leaves every memory byte (20_memory.md R48, R53). -/
theorem memWrite_byteAt_of_no_cell {op : Option Byte} {s t : State} {a : Addr} {v : Byte}
    (h : memWrite op s a v = .done t) (hc : s.cellOf a = none) (c : Nat × Nat) : t.byteAt c = s.byteAt c := by
  rcases memWrite_cases op s a v with ⟨-, e⟩ | ⟨_, _, _, _, _, -, e⟩ | ⟨_, _, _, _, _, hl, e⟩ | ⟨_, _, _, -, e⟩ |
    ⟨_, _, _, _, _, hl, e⟩ <;> rw [e] at h <;> cases h
  · rfl
  · simp [State.cellOf, hl] at hc
  · rfl
  · simpa using setDevice_byteAt_of_not_block (device_of_locate hl) (by rfl) (by rfl) c

/-- A write to a memory byte leaves every other memory byte (20_memory.md R50). -/
theorem memWrite_byteAt_of_ne {op : Option Byte} {s t : State} {a : Addr} {v : Byte} {c : Nat × Nat}
    (h : memWrite op s a v = .done t) (hc : s.cellOf a = some c) {d : Nat × Nat} (hd : d ≠ c) :
    t.byteAt d = s.byteAt d := by
  obtain ⟨n, ro, len, cells, off, hl, hk⟩ := block_of_cellOf hc
  cases ro with
  | true => simp [memWrite, hl] at h
  | false =>
    simp only [memWrite, hl, Effected.done.injEq] at h
    subst h
    by_cases hi : d.1 = c.1
    · have hne : d.2 ≠ off.toNat % len := fun e => hd (Prod.ext hi (by rw [e, hk]))
      obtain ⟨hlt, he⟩ := List.getElem?_eq_some_iff.1 (device_of_locate hl)
      simp [State.byteAt, hi, hlt, Memory.read_write_of_ne cells v hne, he]
    · simpa using setDevice_byteAt_of_ne _ hi

/-! ### Soundness -/

theorem State.wf_iff {s : State} :
    s.wf = true ↔ s.devices.all Device.wf = true ∧ s.mappings.all (Mapping.wf s.devices.length) = true ∧
      disjointMappings s.mappings = true := by
  simp [State.wf, and_assoc]

/-- Soundness depends on the devices and the mappings alone. -/
theorem State.wf_congr {s t : State} (hd : t.devices = s.devices) (hm : t.mappings = s.mappings) : t.wf = s.wf := by
  simp [State.wf, hd, hm]

theorem Device.wf_block {n : String} {ro : Bool} {len : Nat} {cells : Memory} :
    Device.wf ⟨n, .block ro len cells⟩ = true ↔
      blockLengthOk len = true ∧ Memory.wf cells = true ∧ cells.all (fun c => decide (c.1 < len)) = true := by
  simp [Device.wf, and_assoc]

theorem blockLengthOk_pos {len : Nat} (h : blockLengthOk len = true) : 0 < len := by
  simp [blockLengthOk] at h; omega

/-- In a sound state every device is sound. -/
theorem State.wf_device {s : State} (h : s.wf = true) {i : Nat} {d : Device} (hd : s.devices[i]? = some d) :
    d.wf = true :=
  List.all_eq_true.1 (State.wf_iff.1 h).1 d (List.mem_of_getElem? hd)

/-- Replacing a device by a sound one keeps a sound state. -/
theorem State.wf_setDevice {s : State} (h : s.wf = true) (i : Nat) {d : Device} (hd : d.wf = true) :
    (s.setDevice i d).wf = true := by
  obtain ⟨h1, h2, h3⟩ := State.wf_iff.1 h
  refine State.wf_iff.2 ⟨?_, by simpa using h2, by simpa using h3⟩
  simp only [setDevice_devices, List.all_eq_true] at h1 ⊢
  intro e he
  rcases List.mem_or_eq_of_mem_set he with he | rfl
  · exact h1 e he
  · exact hd

/-- A block written to stays sound (20_memory.md R50, R52). -/
theorem Device.wf_write {n : String} {ro : Bool} {len : Nat} {cells : Memory} (k : Nat) (v : Byte)
    (h : Device.wf ⟨n, .block ro len cells⟩ = true) :
    Device.wf ⟨n, .block ro len (Memory.write cells (k % len) v)⟩ = true := by
  obtain ⟨h1, h2, h3⟩ := Device.wf_block.1 h
  exact Device.wf_block.2 ⟨h1, Memory.wf_write _ v h2,
    Memory.all_write h3 (by simpa using Nat.mod_lt k (blockLengthOk_pos h1))⟩

/-- A bus read keeps a sound state. -/
theorem memRead_wf {s : State} (h : s.wf = true) (a : Addr) : (memRead s a).1.wf = true := by
  rcases memRead_cases s a with ⟨-, e⟩ | ⟨_, _, _, _, _, _, -, e⟩ | ⟨_, _, _, -, e⟩ | ⟨i, n, id, st, off, -, e⟩ <;> rw [e]
  · exact h
  · exact h
  · exact h
  · exact State.wf_setDevice h i (d := ⟨n, .external id _⟩) rfl

/-- A bus write keeps a sound state. -/
theorem memWrite_wf {op : Option Byte} {s t : State} {a : Addr} {v : Byte} (hs : s.wf = true)
    (h : memWrite op s a v = .done t) : t.wf = true := by
  rcases memWrite_cases op s a v with ⟨-, e⟩ | ⟨_, _, _, _, _, -, e⟩ | ⟨i, _, _, _, off, hl, e⟩ | ⟨_, _, _, -, e⟩ |
    ⟨i, n, id, st, off, -, e⟩ <;> rw [e] at h <;> cases h
  · exact hs
  · exact State.wf_setDevice hs i (Device.wf_write off.toNat v (State.wf_device hs (device_of_locate hl)))
  · exact hs
  · exact State.wf_setDevice hs i (d := ⟨n, .external id _⟩) rfl

/-- In a sound state a write to a memory byte can be read back at it (20_memory.md R50). -/
theorem memWrite_byteAt_self {op : Option Byte} {s t : State} {a : Addr} {v : Byte} {c : Nat × Nat} (hs : s.wf = true)
    (h : memWrite op s a v = .done t) (hc : s.cellOf a = some c) : t.byteAt c = some v := by
  obtain ⟨n, ro, len, cells, off, hl, hk⟩ := block_of_cellOf hc
  cases ro with
  | true => simp [memWrite, hl] at h
  | false =>
    simp only [memWrite, hl, Effected.done.injEq] at h
    subst h
    have hd := device_of_locate hl
    have hlt : c.1 < s.devices.length := (List.getElem?_eq_some_iff.1 hd).1
    have hm := (Device.wf_block.1 (State.wf_device hs hd)).2.1
    simp [State.byteAt, hlt, hk, Memory.read_write_self _ v hm]

end Sys2Proof.Machine
end

