-- ==== Sys2Proof/Laws/Flags.lean ====
section
/-! SUPPORT. What reading a flag gives after one flag, or the flags of a load, were written. -/

namespace Sys2Proof.Machine

/-- Two flags with the same bit number are the same flag (10_state.md R17). -/
theorem flagBit_injective {f g : Flag} (h : flagBit f = flagBit g) : f = g := by
  revert h; cases f <;> cases g <;> decide

theorem flagBit_lt (f : Flag) : flagBit f < 8 := by cases f <;> decide

/-- The mask of a flag has its one bit set (10_state.md R17). -/
theorem flagMask_getLsbD (f : Flag) (k : Nat) : (flagMask f).getLsbD k = decide (k = flagBit f) := by
  have hb := flagBit_lt f
  by_cases hk : k < 8
  · interval_cases k <;> cases f <;> decide
  · rw [BitVec.getLsbD_of_ge _ _ (by omega)]
    have : k ≠ flagBit f := by omega
    simp [this]

/-- The complement of a flag's mask, as 42_flag_ops.md R120 writes it. -/
theorem flagMask_compl (f : Flag) : 0xFF#8 - flagMask f = ~~~ flagMask f := by cases f <;> decide

theorem putFlag_getLsbD (f : Flag) (b : Bool) (p : Byte) {k : Nat} (hk : k < 8) :
    (putFlag f b p).getLsbD k = if k = flagBit f then b else p.getLsbD k := by
  unfold putFlag
  cases b <;>
    simp only [flagMask_compl, BitVec.getLsbD_or, BitVec.getLsbD_and, BitVec.getLsbD_not, flagMask_getLsbD, hk,
      if_true, Bool.false_eq_true, if_false] <;>
    by_cases h : k = flagBit f <;> simp [h]

@[simp] theorem getFlag_putFlag_self (f : Flag) (b : Bool) (p : Byte) : getFlag f (putFlag f b p) = b := by
  simp [getFlag, putFlag_getLsbD f b p (flagBit_lt f)]

theorem getFlag_putFlag_of_ne {f g : Flag} (b : Bool) (p : Byte) (h : g ≠ f) :
    getFlag g (putFlag f b p) = getFlag g p := by
  have : flagBit g ≠ flagBit f := fun e => h (flagBit_injective e)
  simp [getFlag, putFlag_getLsbD f b p (flagBit_lt g), this]

/-- Writing a flag to the value it was just given changes nothing (42_flag_ops.md R120). -/
theorem putFlag_idem (f : Flag) (b : Bool) (p : Byte) : putFlag f b (putFlag f b p) = putFlag f b p := by
  apply BitVec.eq_of_getLsbD_eq
  intro k hk
  simp only [putFlag_getLsbD f b _ hk]
  split <;> rfl

@[simp] theorem setFlag_flag_self (s : State) (f : Flag) (b : Bool) : (s.setFlag f b).flag f = b :=
  getFlag_putFlag_self f b s.p

theorem setFlag_flag_of_ne (s : State) {f g : Flag} (b : Bool) (h : g ≠ f) : (s.setFlag f b).flag g = s.flag g :=
  getFlag_putFlag_of_ne b s.p h

@[simp] theorem setLoadFlags_flag_z (s : State) (v : Byte) : (s.setLoadFlags v).flag .z = (v == 0x00#8) := by
  rw [State.setLoadFlags, setFlag_flag_of_ne _ _ (by decide), setFlag_flag_self]

@[simp] theorem setLoadFlags_flag_n (s : State) (v : Byte) : (s.setLoadFlags v).flag .n = v.getLsbD 7 := by
  rw [State.setLoadFlags, setFlag_flag_self]

theorem setLoadFlags_flag_of_ne (s : State) (v : Byte) {f : Flag} (hz : f ≠ .z) (hn : f ≠ .n) :
    (s.setLoadFlags v).flag f = s.flag f := by
  rw [State.setLoadFlags, setFlag_flag_of_ne _ _ hn, setFlag_flag_of_ne _ _ hz]

/-! ### Flags after an update of something else -/

@[simp] theorem setSp_flag (s : State) (v : Byte) (f : Flag) : (s.setSp v).flag f = s.flag f := rfl
@[simp] theorem setPc_flag (s : State) (t : Addr) (f : Flag) : (s.setPc t).flag f = s.flag f := rfl
@[simp] theorem addCycles_flag (s : State) (n : Nat) (f : Flag) : (s.addCycles n).flag f = s.flag f := rfl
@[simp] theorem setLife_flag (s : State) (l : Life) (f : Flag) : (s.setLife l).flag f = s.flag f := rfl
@[simp] theorem logDiag_flag (s : State) (e : DiagEvent) (f : Flag) : (s.logDiag e).flag f = s.flag f := rfl
@[simp] theorem note_flag (s : State) (e : BusEvent) (f : Flag) : (s.note e).flag f = s.flag f := rfl
@[simp] theorem nextDraw_flag (s : State) (f : Flag) : (s.nextDraw).flag f = s.flag f := rfl
@[simp] theorem setDevice_flag (s : State) (i : Nat) (d : Device) (f : Flag) : (s.setDevice i d).flag f = s.flag f := rfl
@[simp] theorem halt_flag (s : State) (x : Fault) (f : Flag) : (s.halt x).flag f = s.flag f := rfl
@[simp] theorem setReg_flag (s : State) (r : DataReg) (v : Byte) (f : Flag) : (s.setReg r v).flag f = s.flag f := by cases r <;> rfl

/-- A flag depends on P alone. -/
theorem flag_congr {s t : State} (h : t.p = s.p) (f : Flag) : t.flag f = s.flag f := by
  simp [State.flag, h]

end Sys2Proof.Machine
end

