-- ==== Sys2Proof/Laws/Fetch.lean ====
section
/-! SUPPORT. Fetching: what one byte, several bytes and one instruction fetched at PC leave, and that fetching an instruction is decoding the bytes fetched. -/

namespace Sys2Proof.Machine

variable (s : State)

/-! ### One byte -/

@[simp] theorem fetchByte_a : (fetchByte s).1.a = s.a := by simp [fetchByte]
@[simp] theorem fetchByte_x : (fetchByte s).1.x = s.x := by simp [fetchByte]
@[simp] theorem fetchByte_y : (fetchByte s).1.y = s.y := by simp [fetchByte]
@[simp] theorem fetchByte_sp : (fetchByte s).1.sp = s.sp := by simp [fetchByte]
@[simp] theorem fetchByte_p : (fetchByte s).1.p = s.p := by simp [fetchByte]
@[simp] theorem fetchByte_pc : (fetchByte s).1.pc = s.pc + 1#16 := by simp [fetchByte]
@[simp] theorem fetchByte_cyc : (fetchByte s).1.cyc = s.cyc := by simp [fetchByte]
@[simp] theorem fetchByte_life : (fetchByte s).1.life = s.life := by simp [fetchByte]
@[simp] theorem fetchByte_mappings : (fetchByte s).1.mappings = s.mappings := by simp [fetchByte]
@[simp] theorem fetchByte_assemblyFailed : (fetchByte s).1.assemblyFailed = s.assemblyFailed := by simp [fetchByte]
@[simp] theorem fetchByte_trace : (fetchByte s).1.trace = .read s.pc (fetchByte s).2 :: s.trace := by simp [fetchByte]
@[simp] theorem fetchByte_reg (r : DataReg) : (fetchByte s).1.reg r = s.reg r := by simp [fetchByte]
@[simp] theorem fetchByte_cellOf (a : Addr) : (fetchByte s).1.cellOf a = s.cellOf a := by simp [fetchByte]
@[simp] theorem fetchByte_byteAt (c : Nat × Nat) : (fetchByte s).1.byteAt c = s.byteAt c := by simp [fetchByte]
@[simp] theorem fetchByte_peek (a : Addr) : (fetchByte s).1.peek a = s.peek a := by simp [fetchByte]

theorem fetchByte_wf {s : State} (h : s.wf = true) : (fetchByte s).1.wf = true := by
  simpa [fetchByte, State.wf] using memRead_wf h s.pc

/-- A byte lying in a memory block, fetched. -/
theorem fetchByte_of_peek {s : State} {v : Byte} (h : s.peek s.pc = some v) :
    fetchByte s = ((s.note (.read s.pc v)).setPc (s.pc + 1#16), v) := by
  simp [fetchByte, memRead_of_peek h]

/-- Fetching the address operand, a low and a high byte. -/
theorem fetchAddr_eq :
    fetchAddr s = ((fetchByte (fetchByte s).1).1, joinBytes (fetchByte (fetchByte s).1).2 (fetchByte s).2) := rfl

/-! ### Several bytes -/

theorem fetchBytes_succ (n : Nat) :
    fetchBytes (n + 1) s = ((fetchBytes n (fetchByte s).1).1, (fetchByte s).2 :: (fetchBytes n (fetchByte s).1).2) := rfl

@[simp] theorem fetchBytes_length (n : Nat) : (fetchBytes n s).2.length = n := by
  induction n generalizing s with
  | zero => rfl
  | succ n ih => simp [fetchBytes_succ, ih]

/-- What any number of bytes fetched leaves of the state; PC is past them and the transactions are their reads. -/
structure FetchFrame (s : State) (bs : List Byte) (t : State) : Prop where
  a : t.a = s.a
  x : t.x = s.x
  y : t.y = s.y
  sp : t.sp = s.sp
  p : t.p = s.p
  cyc : t.cyc = s.cyc
  life : t.life = s.life
  mappings : t.mappings = s.mappings
  assemblyFailed : t.assemblyFailed = s.assemblyFailed
  pc : t.pc = s.pc + BitVec.ofNat 16 bs.length
  trace : t.trace = (fetchEvents s.pc bs).reverse ++ s.trace
  cellOf : ∀ c, t.cellOf c = s.cellOf c
  byteAt : ∀ c, t.byteAt c = s.byteAt c
  wf : s.wf = true → t.wf = true

theorem fetchBytes_frame (n : Nat) : FetchFrame s (fetchBytes n s).2 (fetchBytes n s).1 := by
  induction n generalizing s with
  | zero => exact ⟨rfl, rfl, rfl, rfl, rfl, rfl, rfl, rfl, rfl, by simp [fetchBytes], rfl, fun _ => rfl, fun _ => rfl, id⟩
  | succ n ih =>
    have h := ih (fetchByte s).1
    rw [fetchBytes_succ]
    refine ⟨by simp [h.a], by simp [h.x], by simp [h.y], by simp [h.sp], by simp [h.p], by simp [h.cyc],
      by simp [h.life], by simp [h.mappings], by simp [h.assemblyFailed], ?_, ?_, by simp [h.cellOf], by simp [h.byteAt],
      fun hw => h.wf (fetchByte_wf hw)⟩
    · rw [h.pc, fetchByte_pc, List.length_cons, BitVec.add_assoc]
      congr 1
      rw [BitVec.ofNat_add, BitVec.add_comm]
    · rw [h.trace, fetchByte_pc, fetchByte_trace]
      simp [fetchEvents]

/-! ### One instruction -/

/-- An instruction fetched is the decoding of the bytes fetched (30_encoding.md R80, R86). -/
theorem fetchInstr_instr {s t : State} {i : Instr} (h : fetchInstr s = .instr i t) :
    ∃ n, t = (fetchBytes n s).1 ∧ decode (fetchBytes n s).2 = .instr i [] := by
  unfold fetchInstr at h
  rcases hs : opShape (fetchByte s).2 with _ | ⟨j⟩ | ⟨mk⟩ | ⟨mk⟩ <;> simp only [hs, Fetched.instr.injEq, reduceCtorEq] at h <;>
    obtain ⟨rfl, rfl⟩ := h
  · exact ⟨1, rfl, by simp [fetchBytes, decode, hs]⟩
  · exact ⟨2, rfl, by simp [fetchBytes, decode, hs]⟩
  · exact ⟨3, rfl, by simp [fetchBytes, decode, hs, fetchAddr_eq]⟩

/-- Bytes lying in memory blocks, fetched: nothing but PC and the model's own trace changes. -/
theorem fetchBytes_of_peek (bs : List Byte) (s : State) (h : ∀ (k : Nat) (b : Byte), bs[k]? = some b → s.peek (s.pc + BitVec.ofNat 16 k) = some b) :
   fetchBytes bs.length s = ({ s with pc := s.pc + BitVec.ofNat 16 bs.length, trace := (fetchEvents s.pc bs).reverse ++ s.trace }, bs) := by
  induction bs generalizing s with
  | nil => simp [fetchBytes, fetchEvents]
  | cons b bs ih =>
    have h0 := fetchByte_of_peek (s := s) (v := b) (by simpa using h 0 b rfl)
    rw [List.length_cons, fetchBytes_succ, h0]
    have := ih ((s.note (.read s.pc b)).setPc (s.pc + 1#16)) (by
      intro k c hk
      have := h (k+1) c (by simpa using hk)
      simp only [setPc_peek, note_peek, setPc_pc]
      rw [← this, BitVec.ofNat_add, BitVec.add_assoc, BitVec.add_comm 1#16])
    rw [this]
    simp [fetchEvents, State.note, State.setPc]
    rw [BitVec.ofNat_add, BitVec.add_assoc, BitVec.add_comm 1#16]

/-- The decoding of bytes fetched is the instruction fetched, if no byte is left over. -/
theorem fetchInstr_of_decode {s : State} {n : Nat} {i : Instr} (h : decode (fetchBytes n s).2 = .instr i []) :
    fetchInstr s = .instr i (fetchBytes n s).1 := by
  cases n with
  | zero => simp [fetchBytes, decode] at h
  | succ n =>
    rw [fetchBytes_succ] at h ⊢
    unfold fetchInstr
    rcases hs : opShape (fetchByte s).2 with _ | ⟨j⟩ | ⟨mk⟩ | ⟨mk⟩
    · simp [decode, hs] at h
    · have hl := fetchBytes_length (fetchByte s).1 n
      simp [decode, hs] at h
      obtain ⟨rfl, h2⟩ := h
      rw [h2] at hl; simp at hl; subst hl
      simp [fetchBytes, hs]
    · rcases n with _ | _ | n
      · simp [fetchBytes, decode, hs] at h
      · simp [fetchBytes, decode, hs] at h; subst h; simp [fetchBytes, hs]
      · simp [fetchBytes, decode, hs] at h
    · rcases n with _ | _ | _ | n
      · simp [fetchBytes, decode, hs] at h
      · simp [fetchBytes, decode, hs] at h
      · simp [fetchBytes, decode, hs] at h; subst h; simp [fetchBytes, hs, fetchAddr_eq]
      · simp [fetchBytes, decode, hs] at h

/-- An unassigned opcode fetched is the one byte read (45_execution_step.md R142). -/
theorem fetchInstr_unassigned {s t : State} {op : Byte} (h : fetchInstr s = .unassigned op t) :
    t = (fetchByte s).1 ∧ op = (fetchByte s).2 ∧ opShape op = none := by
  unfold fetchInstr at h
  rcases hs : opShape (fetchByte s).2 with _ | ⟨j⟩ | ⟨mk⟩ | ⟨mk⟩ <;> simp only [hs, Fetched.unassigned.injEq, reduceCtorEq] at h
  obtain ⟨rfl, rfl⟩ := h
  exact ⟨rfl, rfl, hs⟩

end Sys2Proof.Machine
end

