-- ==== Sys2Proof/Laws/Exec.lean ====
section
/-! SUPPORT. The meanings by class: an instruction is a load, a flag operation or a store of the shared operations, and what each of the three can answer. -/

namespace Sys2Proof.Machine

/-- The class of an instruction, with what the shared operation of the class takes. -/
theorem exec_cases (i : Instr) (s : State) :
    (∃ op r v, (∀ ea, i ≠ .ldaAbs ea ∧ i ≠ .ldxAbs ea ∧ i ≠ .ldyAbs ea ∧ i ≠ .sta ea ∧ i ≠ .stx ea ∧ i ≠ .sty ea) ∧
      exec i s = loadImmediate op r v s) ∨
    (∃ op f b, f ≠ .b4 ∧ f ≠ .b5 ∧ (f = .v → b = false) ∧ exec i s = flagImplied op f b s) ∨
    (∃ op r ea, exec i s = loadAbsolute op r ea s) ∨
    (∃ op r ea, exec i s = storeAbsolute op r ea s) := by
  cases i
  case clc => exact .inr (.inl ⟨_, .c, false, by decide, by decide, by decide, rfl⟩)
  case sec => exact .inr (.inl ⟨_, .c, true, by decide, by decide, by decide, rfl⟩)
  case cli => exact .inr (.inl ⟨_, .i, false, by decide, by decide, by decide, rfl⟩)
  case sei => exact .inr (.inl ⟨_, .i, true, by decide, by decide, by decide, rfl⟩)
  case clv => exact .inr (.inl ⟨_, .v, false, by decide, by decide, by decide, rfl⟩)
  case cld => exact .inr (.inl ⟨_, .d, false, by decide, by decide, by decide, rfl⟩)
  case sed => exact .inr (.inl ⟨_, .d, true, by decide, by decide, by decide, rfl⟩)
  case sta ea => exact .inr (.inr (.inr ⟨_, .a, ea, rfl⟩))
  case stx ea => exact .inr (.inr (.inr ⟨_, .x, ea, rfl⟩))
  case sty ea => exact .inr (.inr (.inr ⟨_, .y, ea, rfl⟩))
  case ldaAbs ea => exact .inr (.inr (.inl ⟨_, .a, ea, rfl⟩))
  case ldxAbs ea => exact .inr (.inr (.inl ⟨_, .x, ea, rfl⟩))
  case ldyAbs ea => exact .inr (.inr (.inl ⟨_, .y, ea, rfl⟩))
  case ldaImm v => exact .inl ⟨_, .a, v, by simp, rfl⟩
  case ldxImm v => exact .inl ⟨_, .x, v, by simp, rfl⟩
  case ldyImm v => exact .inl ⟨_, .y, v, by simp, rfl⟩

/-- What a load of an immediate answers. -/
theorem loadImmediate_eq (op : Byte) (r : DataReg) (v : Byte) (s : State) :
    loadImmediate op r v s = .next (((s.setReg r v).setLoadFlags v).addCycles cyclesImmediate) := rfl

/-- What a load from an address answers. -/
theorem loadAbsolute_eq (op : Byte) (r : DataReg) (ea : Addr) (s : State) :
    loadAbsolute op r ea s =
      .next ((((memRead s ea).1.setReg r (memRead s ea).2).setLoadFlags (memRead s ea).2).addCycles cyclesAbsolute) := rfl

/-- What a flag operation answers. -/
theorem flagImplied_eq (op : Byte) (f : Flag) (b : Bool) (s : State) :
    flagImplied op f b s = .next ((s.setFlag f b).addCycles cyclesImplied) := rfl

/-- What a store answers: the write done and the cost added, or the halt where a read-only block refused it. -/
theorem storeAbsolute_cases (op : Byte) (r : DataReg) (ea : Addr) (s : State) :
    (∃ t, memWrite (some op) (memRead s ea).1 ea (s.reg r) = .done t ∧
      storeAbsolute op r ea s = .next (t.addCycles cyclesAbsolute)) ∨
    (∃ n, (∃ i len cells off, (memRead s ea).1.locate ea = some (i, ⟨n, .block true len cells⟩, off)) ∧
      storeAbsolute op r ea s =
        .next (((memRead s ea).1.note (.writeFatal ea (s.reg r))).halt (.deviceMisuse n ea (s.reg r) (some op)))) := by
  have h : storeAbsolute op r ea s =
      .next (conclude op cyclesAbsolute (memWrite (some op) (memRead s ea).1 ea (s.reg r))) := by
    simp [storeAbsolute, storeEffect]
  rw [h]
  cases hw : memWrite (some op) (memRead s ea).1 ea (s.reg r) with
  | done t => exact .inl ⟨t, rfl, rfl⟩
  | raised f t =>
    obtain ⟨i, n, len, cells, off, hl, rfl, rfl⟩ := memWrite_raised hw
    exact .inr ⟨n, ⟨i, len, cells, off, hl⟩, rfl⟩

/-- A bus read leaves who owns an address, and whether it is read-only. -/
@[simp] theorem memRead_readOnlyAt (s : State) (b a : Addr) : (memRead s b).1.readOnlyAt a = s.readOnlyAt a := by
  rcases memRead_cases s b with ⟨-, h⟩ | ⟨_, _, _, _, _, _, -, h⟩ | ⟨_, _, _, -, h⟩ | ⟨i, n, id, st, off, hl, h⟩ <;> rw [h]
  · rfl
  · rfl
  · rfl
  · have hd := device_of_locate hl
    unfold State.readOnlyAt State.locate State.lookup
    simp only [note_mappings, note_devices, setDevice_mappings, setDevice_devices]
    cases s.mappings.find? (·.owns a) with
    | none => rfl
    | some m =>
      simp only [List.getElem?_set]
      by_cases hi : i = m.dev
      · subst hi
        have hlt : m.dev < s.devices.length := (List.getElem?_eq_some_iff.1 hd).1
        rw [if_pos rfl, if_pos hlt, hd]
      · simp [hi]

/-- A completed bus write leaves which addresses are read-only. -/
theorem memWrite_readOnlyAt {s t : State} {op : Option Byte} {a : Addr} {v : Byte} (h : memWrite op s a v = .done t) (b : Addr) : t.readOnlyAt b = s.readOnlyAt b := by
  have hs : ∀ {i d e}, s.devices[i]? = some d → (∀ (b:Bool), (match e.kind with | .block ro _ _ => some ro | _ => none) = some b ↔ (match d.kind with | .block ro _ _ => some ro | _ => none) = some b) → (s.setDevice i e).readOnlyAt b = s.readOnlyAt b := by
    intro i d e hd he
    unfold State.readOnlyAt State.locate State.lookup
    simp only [setDevice_mappings, setDevice_devices]
    cases s.mappings.find? (·.owns b) with
    | none => rfl
    | some m =>
      simp only [List.getElem?_set]
      by_cases hi : i = m.dev
      · subst hi
        have hlt : m.dev < s.devices.length := (List.getElem?_eq_some_iff.1 hd).1
        rw [if_pos rfl, if_pos hlt, hd]
        obtain ⟨n1, k1⟩ := d; obtain ⟨n2, k2⟩ := e
        rcases k1 with ⟨_ | _, _, _⟩ | _ | _ <;> rcases k2 with ⟨_ | _, _, _⟩ | _ | _ <;> simp_all
      · simp [hi]
  rcases memWrite_cases op s a v with ⟨-, e⟩ | ⟨_, _, _, _, _, -, e⟩ | ⟨_, _, _, _, _, hl, e⟩ | ⟨_, _, _, -, e⟩ | ⟨_, _, _, _, _, hl, e⟩ <;> rw [e] at h <;> cases h
  · rfl
  · exact hs (device_of_locate hl) (by simp)
  · rfl
  · exact hs (device_of_locate hl) (by simp)

/-- A bus read at an address leaves the block that owns it. -/
theorem memRead_locate_block {s : State} {b a : Addr} {i : Nat} {n : String} {ro : Bool} {len : Nat} {cells : Memory}
    {off : Addr} : (memRead s b).1.locate a = some (i, ⟨n, .block ro len cells⟩, off) ↔
      s.locate a = some (i, ⟨n, .block ro len cells⟩, off) := by
  rcases memRead_cases s b with ⟨-, h⟩ | ⟨_, _, _, _, _, _, -, h⟩ | ⟨_, _, _, -, h⟩ | ⟨j, m, id, st, o, hl, h⟩ <;> rw [h]
  · rfl
  · rfl
  · rfl
  · have hd := device_of_locate hl
    have hlt : j < s.devices.length := (List.getElem?_eq_some_iff.1 hd).1
    simp only [note_locate, locate_eq_some, setDevice_devices, List.getElem?_set]
    constructor
    · rintro ⟨k, hk, rfl, hdev, rfl⟩
      refine ⟨k, hk, rfl, ?_, rfl⟩
      by_cases hj : j = k.dev
      · simp [hj, hj ▸ hlt] at hdev
      · simpa [hj] using hdev
    · rintro ⟨k, hk, rfl, hdev, rfl⟩
      refine ⟨k, hk, rfl, ?_, rfl⟩
      by_cases hj : j = k.dev
      · subst hj; rw [hd] at hdev; cases hdev
      · simpa [hj] using hdev

end Sys2Proof.Machine
end

