-- ==== Sys2Proof/Laws/Decode.lean ====
section
/-! SUPPORT. Byte order and the decoder's table: joining and splitting a 16-bit value, and that a looked-up opcode is one of the rows. -/

namespace Sys2Proof

/-- Splitting a 16-bit value and joining its bytes gives it back (20_memory.md R54). -/
theorem joinBytes_high_low (a : Addr) : joinBytes (highByte a) (lowByte a) = a := by
  unfold joinBytes highByte lowByte
  apply BitVec.eq_of_getLsbD_eq
  intro k hk
  simp only [BitVec.getLsbD_append, BitVec.getLsbD_extractLsb']
  split
  · next h => simp [h]
  · next h =>
    have : 8 + (k - 8) = k := by omega
    simp [this]
    omega

@[simp] theorem lowByte_joinBytes (hi lo : Byte) : lowByte (joinBytes hi lo) = lo := by
  unfold joinBytes lowByte
  apply BitVec.eq_of_getLsbD_eq
  intro k hk
  simp only [BitVec.getLsbD_append, BitVec.getLsbD_extractLsb']
  simp [hk]

@[simp] theorem highByte_joinBytes (hi lo : Byte) : highByte (joinBytes hi lo) = hi := by
  unfold joinBytes highByte
  apply BitVec.eq_of_getLsbD_eq
  intro k hk
  simp only [BitVec.getLsbD_append, BitVec.getLsbD_extractLsb']
  simp [hk]

/-- `{hi, lo} = hi * 256 + lo` (00_scope.md R7). -/
theorem joinBytes_toNat (hi lo : Byte) : (joinBytes hi lo).toNat = hi.toNat * 256 + lo.toNat := by
  unfold joinBytes
  rw [BitVec.toNat_append, ← Nat.shiftLeft_add_eq_or_of_lt lo.isLt, Nat.shiftLeft_eq]

/-- An opcode is unassigned, or it is the opcode of one of the rows, whose shape it has. -/
theorem opShape_cases (op : Byte) : opShape op = none ∨ ∃ p ∈ opShapes, p.1 = op ∧ opShape op = some p.2 := by
  unfold opShape
  cases h : opShapes.lookup op with
  | none => exact .inl rfl
  | some v =>
    obtain ⟨l, r, e, -⟩ := List.lookup_eq_some_iff.1 h
    exact .inr ⟨(op, v), by rw [e]; simp, rfl, rfl⟩

end Sys2Proof
end

