-- ==== Sys2Proof/Laws/Table.lean ====
section
/-! SUPPORT. The decoder's table and the opcode table assign the same opcodes. -/

namespace Sys2Proof.Machine

/-- An opcode is in neither table, or in both, each lookup answering a row. -/
theorem opTable_cases (op : Byte) : (opShape op = none ∧ opTable op = unassignedEntry) ∨
   (∃ p ∈ opShapes, p.1 = op ∧ opShape op = some p.2 ∧ ∃ q ∈ opRows, q.1 = op ∧ opTable op = q.2) := by
  have key : ∀ op : Byte, (opShapes.lookup op).isNone = (opRows.lookup op).isNone := by
    intro op
    simp only [opShapes, opRows, List.lookup]
    repeat' split
    all_goals rfl
  unfold opShape opTable
  cases h : opShapes.lookup op with
  | none =>
    have := key op; rw [h] at this
    cases h2 : opRows.lookup op with
    | none => exact .inl ⟨rfl, rfl⟩
    | some v => rw [h2] at this; simp at this
  | some v =>
    have := key op; rw [h] at this
    cases h2 : opRows.lookup op with
    | none => rw [h2] at this; simp at this
    | some w =>
      right
      obtain ⟨l1, l2, e, _⟩ := List.lookup_eq_some_iff.1 h
      obtain ⟨l3, l4, e2, _⟩ := List.lookup_eq_some_iff.1 h2
      exact ⟨(op, v), by rw [e]; simp, rfl, rfl, (op, w), by rw [e2]; simp, rfl, rfl⟩

/-- The assigned opcodes are those the decoder knows (30_encoding.md R85). -/
theorem opTable_assigned_iff (op : Byte) : (opTable op).assigned = true ↔ opShape op ≠ none := by
  rcases opTable_cases op with ⟨h1, h2⟩ | ⟨p, hp, rfl, hs, q, hq, hq1, hq2⟩
  · simp [h1, h2, OpEntry.assigned, unassignedEntry]
  · rw [hs, hq2]
    simp only [opRows, List.mem_cons, List.not_mem_nil, or_false] at hq
    rcases hq with rfl | rfl | rfl | rfl | rfl | rfl | rfl | rfl | rfl | rfl | rfl | rfl | rfl | rfl | rfl | rfl <;> simp [OpEntry.assigned]

end Sys2Proof.Machine
end

