-- ==== Sys2Proof/Laws/Step.lean ====
section
/-! SUPPORT. What an instruction, and a step, can do, said once. -/

namespace Sys2Proof.Machine

/-- What every instruction leaves, and that it keeps a sound state. -/
structure ExecFrame (s t : State) : Prop where
  sp : t.sp = s.sp
  pc : t.pc = s.pc
  mappings : t.mappings = s.mappings
  assemblyFailed : t.assemblyFailed = s.assemblyFailed
  life : t.life = s.life ∨ ∃ f, t.life = .haltedOnFault f
  b4 : t.flag .b4 = s.flag .b4
  b5 : t.flag .b5 = s.flag .b5
  v : s.flag .v = false → t.flag .v = false
  len : t.devices.length = s.devices.length
  wf : s.wf = true → t.wf = true

/-- Every instruction answers a next state, within that frame. -/
theorem exec_frame (i : Instr) (s : State) : ∃ t, exec i s = .next t ∧ ExecFrame s t := by
  rcases exec_cases i s with ⟨op, r, v, -, h⟩ | ⟨op, f, b, h4, h5, hv, h⟩ | ⟨op, r, ea, h⟩ | ⟨op, r, ea, h⟩
  · refine ⟨_, h.trans (loadImmediate_eq op r v s), ?_⟩
    constructor <;> try simp
    · exact (setLoadFlags_flag_of_ne _ _ (by decide) (by decide)).trans (by simp)
    · exact (setLoadFlags_flag_of_ne _ _ (by decide) (by decide)).trans (by simp)
    · intro hh; exact ((setLoadFlags_flag_of_ne _ _ (by decide) (by decide)).trans (by simp)).trans hh
    · intro hh; exact (State.wf_congr (by simp) (by simp)).trans hh
  · refine ⟨_, h.trans (flagImplied_eq op f b s), ?_⟩
    constructor <;> try simp
    · exact setFlag_flag_of_ne _ _ (Ne.symm h4)
    · exact setFlag_flag_of_ne _ _ (Ne.symm h5)
    · intro hh
      by_cases hf : f = .v
      · subst hf; rw [hv rfl]; exact setFlag_flag_self _ _ _
      · exact (setFlag_flag_of_ne _ _ (Ne.symm hf)).trans hh
    · intro hh; exact (State.wf_congr (by simp) (by simp)).trans hh
  · refine ⟨_, h.trans (loadAbsolute_eq op r ea s), ?_⟩
    constructor <;> try simp
    · exact (setLoadFlags_flag_of_ne _ _ (by decide) (by decide)).trans (by simp)
    · exact (setLoadFlags_flag_of_ne _ _ (by decide) (by decide)).trans (by simp)
    · intro hh; exact ((setLoadFlags_flag_of_ne _ _ (by decide) (by decide)).trans (by simp)).trans hh
    · intro hh; exact (State.wf_congr (by simp) (by simp)).trans (memRead_wf hh ea)
  · rcases storeAbsolute_cases op r ea s with ⟨t, hw, e⟩ | ⟨n, -, e⟩
    · refine ⟨_, h.trans e, ?_⟩
      have hf := memWrite_frame hw
      constructor <;> try simp [hf.sp, hf.pc, hf.mappings, hf.assemblyFailed, hf.life, hf.length]
      · exact (flag_congr hf.p _).trans (memRead_flag _ _ _)
      · exact (flag_congr hf.p _).trans (memRead_flag _ _ _)
      · intro hh; exact ((flag_congr hf.p _).trans (memRead_flag _ _ _)).trans hh
      · intro hh; exact (State.wf_congr (by simp) (by simp)).trans (memWrite_wf (memRead_wf hh ea) hw)
    · refine ⟨_, h.trans e, ?_⟩
      constructor <;> try simp
      · intro hh; exact (State.wf_congr (by simp) (by simp)).trans (memRead_wf hh ea)

/-- An accepted step answers a next state. -/
theorem step_next {s : State} (ha : s.life.accepts = true) : ∃ t, step s = .next t := by
  unfold step; rw [if_pos ha]
  cases h : fetchInstr (s.setLife .running) with
  | instr i u => obtain ⟨t, ht, -⟩ := exec_frame i u; exact ⟨t, ht⟩
  | unassigned op u => exact ⟨_, rfl⟩

/-- An opcode the decoder does not know is fetched as unassigned. -/
theorem fetch_of_unassigned {u : State} (h : opShape (fetchByte u).2 = none) : fetchInstr u = .unassigned (fetchByte u).2 (fetchByte u).1 := by
  simp [fetchInstr, h]

/-- Everything a step that answers a next state did: it was accepted, and either it read an unassigned opcode and halted,
or it ran the instruction its bytes decode to. -/
theorem step_cases {s t : State} (h : step s = .next t) : s.life.accepts = true ∧
   ((opShape s.nextOpcode = none ∧ t = (fetchByte (s.setLife .running)).1.halt (.unimplementedOpcode s.nextOpcode)) ∨
    (∃ n i, decode (fetchBytes n (s.setLife .running)).2 = .instr i [] ∧ exec i (fetchBytes n (s.setLife .running)).1 = .next t ∧ fetchInstr (s.setLife .running) = .instr i (fetchBytes n (s.setLife .running)).1)) := by
  unfold step at h
  split at h
  · next ha =>
    refine ⟨ha, ?_⟩
    cases hf : fetchInstr (s.setLife .running) with
    | instr i u =>
      obtain ⟨n, rfl, hd⟩ := fetchInstr_instr hf
      rw [hf] at h
      exact .inr ⟨n, i, hd, h, rfl⟩
    | unassigned op u =>
      obtain ⟨rfl, rfl, hs⟩ := fetchInstr_unassigned hf
      rw [hf] at h; cases h
      exact .inl ⟨hs, rfl⟩
  · cases h

/-- A step leaves the mapping list and the number of devices. -/
theorem step_mappings {s t} (h : step s = .next t) : t.mappings = s.mappings ∧ t.devices.length = s.devices.length := by
  rcases (step_cases h).2 with ⟨-, rfl⟩ | ⟨n, i, hd, he, -⟩
  · simp [fetchByte]
  · obtain ⟨t', h', hf⟩ := exec_frame i (fetchBytes n (s.setLife .running)).1
    rw [h'] at he; cases he
    have hl : ∀ n u, (fetchBytes n u).1.devices.length = u.devices.length := by
      intro n; induction n with
      | zero => intro u; rfl
      | succ n ih => intro u; rw [fetchBytes_succ]; simp [ih]; simp [fetchByte]
    exact ⟨by rw [hf.mappings, (fetchBytes_frame _ n).mappings]; rfl, by rw [hf.len, hl]; rfl⟩

end Sys2Proof.Machine
end

