-- ==== Sys2Proof/Laws/Commands.lean ====
section
/-! SUPPORT. What each host command can do, said once: complete, be refused, or halt. -/

namespace Sys2Proof.Machine

/-- One zeroing write. -/
theorem zeroAll_single (s : State) (a : Addr) : zeroAll s [a] = memWrite none s a 0x00#8 := by
  simp [zeroAll]; cases memWrite none s a 0x00#8 <;> rfl

/-- Zeroing writes, one at a time. -/
theorem zeroAll_cons (s : State) (a : Addr) (as) : zeroAll s (a :: as) = match memWrite none s a 0x00#8 with | .done t => zeroAll t as | .raised f t => .raised f t := rfl

/-- What the bus part of a command leaves, and that it keeps a sound state. -/
structure CmdFrame (s t : State) : Prop where
  a : t.a = s.a
  x : t.x = s.x
  y : t.y = s.y
  sp : t.sp = s.sp
  p : t.p = s.p
  cyc : t.cyc = s.cyc
  mappings : t.mappings = s.mappings
  assemblyFailed : t.assemblyFailed = s.assemblyFailed
  len : t.devices.length = s.devices.length
  wf : s.wf = true → t.wf = true

/-- Loading PC from the vector leaves every other register, LIFE and the mapping list. -/
theorem loadVector_frame (s : State) : CmdFrame s (loadVector s) ∧ (loadVector s).life = s.life := by
  refine ⟨⟨?_, ?_, ?_, ?_, ?_, ?_, ?_, ?_, ?_, ?_⟩, ?_⟩ <;> simp [loadVector]
  intro h; exact memRead_wf (memRead_wf h Config.resetVector) (Config.resetVector + 1#16)

/-- What the vector's two reads answer, and that they leave the memory (20_memory.md R54). -/
theorem loadVector_reads (s : State) : ∃ lo hi, (loadVector s).pc.toNat = hi.toNat * 256 + lo.toNat ∧ 
   (∀ b, (loadVector s).peek 0xFFFC#16 = some b → lo = b) ∧ (∀ b, (loadVector s).peek 0xFFFD#16 = some b → hi = b) ∧
   (loadVector s).trace = .read 0xFFFD#16 hi :: .read 0xFFFC#16 lo :: s.trace ∧ (∀ a, (loadVector s).cellOf a = s.cellOf a) ∧ (∀ a, (loadVector s).byteAt a = s.byteAt a) := by
  refine ⟨(memRead s Config.resetVector).2, (memRead (memRead s Config.resetVector).1 (Config.resetVector + 1#16)).2, ?_, ?_, ?_, ?_, ?_, ?_⟩
  · simp only [loadVector, setPc_pc, joinBytes_toNat]
  · intro b hb
    have hb : s.peek 0xFFFC#16 = some b := by simpa [loadVector] using hb
    have : s.peek Config.resetVector = some b := hb
    rw [memRead_of_peek this]
  · intro b hb
    have hb : s.peek 0xFFFD#16 = some b := by simpa [loadVector] using hb
    have : (memRead s Config.resetVector).1.peek (Config.resetVector + 1#16) = some b := by rw [show Config.resetVector + 1#16 = 0xFFFD#16 from rfl]; simpa using hb
    rw [memRead_of_peek this]
  · simp [loadVector]; exact ⟨rfl, rfl⟩
  · simp [loadVector]
  · simp [loadVector]

/-- Everything zeroing writes can do: complete, or raise `DeviceMisuse`, within the frame. -/
theorem zeroAll_frame (as : List Addr) (s : State) : (∃ t, zeroAll s as = .done t ∧ CmdFrame s t ∧ t.life = s.life ∧ t.pc = s.pc) ∨
    (∃ n a v t, zeroAll s as = .raised (.deviceMisuse n a v none) t ∧ CmdFrame s t ∧ t.pc = s.pc) := by
  induction as generalizing s with
  | nil => exact .inl ⟨s, rfl, ⟨rfl, rfl, rfl, rfl, rfl, rfl, rfl, rfl, rfl, id⟩, rfl, rfl⟩
  | cons a as ih =>
    cases hw : memWrite none s a 0x00#8 with
    | done t =>
      have hf := memWrite_frame hw
      have hcf : CmdFrame s t := ⟨hf.a, hf.x, hf.y, hf.sp, hf.p, hf.cyc, hf.mappings, hf.assemblyFailed, hf.length, fun h => memWrite_wf h hw⟩
      have tr : ∀ u, CmdFrame t u → CmdFrame s u := fun u h => ⟨h.a.trans hcf.a, h.x.trans hcf.x, h.y.trans hcf.y, h.sp.trans hcf.sp, h.p.trans hcf.p, h.cyc.trans hcf.cyc, h.mappings.trans hcf.mappings, h.assemblyFailed.trans hcf.assemblyFailed, h.len.trans hcf.len, fun hh => h.wf (hcf.wf hh)⟩
      rcases ih t with ⟨u, hu, h1, h2, h3⟩ | ⟨n, b, v, u, hu, h1, h2⟩
      · left; exact ⟨u, by rw [zeroAll_cons, hw]; exact hu, tr u h1, h2.trans hf.life, h3.trans hf.pc⟩
      · right; exact ⟨n, b, v, u, by rw [zeroAll_cons, hw]; exact hu, tr u h1, h2.trans hf.pc⟩
    | raised f t =>
      right
      obtain ⟨i, n, len, cells, off, hl, rfl, rfl⟩ := memWrite_raised hw
      refine ⟨n, a, 0x00#8, s.note (.writeFatal a 0x00#8), by rw [zeroAll_cons, hw], ⟨rfl, rfl, rfl, rfl, rfl, rfl, rfl, rfl, rfl, fun h => (State.wf_congr (by simp) (by simp)).trans h⟩, rfl⟩

/-- What the bytes say of the memory, its addresses say too. -/
theorem MemoryZeroed.of_bytes {as : List Addr} {s t : State} (h1 : ∀ a, t.cellOf a = s.cellOf a)
    (h2 : ∀ b c, b ∈ as → s.cellOf b = some c → t.byteAt c = some 0x00#8)
    (h3 : ∀ c, (∀ b, b ∈ as → s.cellOf b ≠ some c) → t.byteAt c = s.byteAt c) : MemoryZeroed as s t := by
  refine ⟨h1, h2, h3, fun a b c hb hc ha => ?_, fun a h => ?_⟩
  · simp [State.peek, h1, ha, h2 b c hb hc]
  · unfold State.peek
    rw [h1]
    cases ha : s.cellOf a with
    | none => rfl
    | some c => exact h3 c fun b hb hc => h b c hb hc ha

/-- Zeroing and then leaving the memory zeroes it. -/
theorem MemoryZeroed.same {as : List Addr} {s t u : State} (h : MemoryZeroed as s t) (hc : ∀ a, u.cellOf a = t.cellOf a)
    (hb : ∀ c, u.byteAt c = t.byteAt c) : MemoryZeroed as s u :=
  .of_bytes (fun a => (hc a).trans (h.1 a)) (fun b c h1 h2 => (hb c).trans (h.2.1 b c h1 h2))
    fun c h1 => (hb c).trans (h.2.2.1 c h1)

/-- Completed zeroing writes zero the memory bytes their addresses reach, and no other (10_state.md R22). -/
theorem zeroAll_memory {as : List Addr} {s t : State} (hw : s.wf = true) (h : zeroAll s as = .done t) :
    MemoryZeroed as s t := by
  induction as generalizing s with
  | nil => cases h; exact .of_bytes (fun _ => rfl) (fun _ _ h => by cases h) fun _ _ => rfl
  | cons a as ih =>
    rw [zeroAll_cons] at h
    cases hm : memWrite none s a 0x00#8 with
    | raised f u => rw [hm] at h; cases h
    | done u =>
      rw [hm] at h
      have hf := memWrite_frame hm
      obtain ⟨h1, h2, h3, -, -⟩ := ih (memWrite_wf hw hm) h
      have hkeep : ∀ c, s.cellOf a ≠ some c → u.byteAt c = s.byteAt c := by
        intro c hc
        cases ha : s.cellOf a with
        | none => exact memWrite_byteAt_of_no_cell hm ha c
        | some d => exact memWrite_byteAt_of_ne hm ha fun he => hc (he ▸ ha)
      refine .of_bytes (fun b => (h1 b).trans (hf.cellOf b)) (fun b c hb hc => ?_) fun c hc => ?_
      · by_cases hlater : ∃ d, d ∈ as ∧ s.cellOf d = some c
        · obtain ⟨d, hd, hdc⟩ := hlater
          exact h2 d c hd ((hf.cellOf d).trans hdc)
        · rcases List.mem_cons.1 hb with rfl | hb
          · rw [h3 c fun d hd hdc => hlater ⟨d, hd, (hf.cellOf d).symm.trans hdc⟩]
            exact memWrite_byteAt_self hw hm hc
          · exact absurd ⟨b, hb, hc⟩ hlater
      · rw [h3 c fun d hd hdc => hc d (List.mem_cons_of_mem _ hd) ((hf.cellOf d).symm.trans hdc)]
        exact hkeep c (hc a List.mem_cons_self)

/-- Everything an accepted `power_on` can do: complete, or halt at a zeroing write (70_reset_and_hazards.md R180). -/
theorem powerOn_cases (s : State) (h : s.life = .poweredOff) (ha : s.assemblyFailed = false) :
   (∃ t, (powerOn s) = commandResult s t .ok ∧ CmdFrame (powerOnRegisters s) t ∧ t.life = .poweredOn) ∨
   (∃ n a v t, powerOn s = commandResult s t (.fault (.deviceMisuse n a v none)) ∧ CmdFrame (powerOnRegisters s) t ∧ t.life = .haltedOnFault (.deviceMisuse n a v none) ∧ t.pc = s.pc) := by
  unfold powerOn; rw [if_pos ⟨h, ha⟩]
  rcases zeroAll_frame Config.powerOnZero (powerOnRegisters s) with ⟨u, hu, h1, h2, h3⟩ | ⟨n, b, v, u, hu, h1, h2⟩
  · left
    obtain ⟨h4, h5⟩ := loadVector_frame u
    rw [hu]
    refine ⟨_, rfl, ?_, rfl⟩
    exact ⟨h4.a.trans h1.a, h4.x.trans h1.x, h4.y.trans h1.y, h4.sp.trans h1.sp, h4.p.trans h1.p, h4.cyc.trans h1.cyc, h4.mappings.trans h1.mappings, h4.assemblyFailed.trans h1.assemblyFailed, h4.len.trans h1.len, fun hh => (State.wf_congr (by simp) (by simp)).trans (h4.wf (h1.wf hh))⟩
  · right
    rw [hu]
    refine ⟨n, b, v, _, rfl, ?_, rfl, h2⟩
    exact ⟨h1.a, h1.x, h1.y, h1.sp, h1.p, h1.cyc, h1.mappings, h1.assemblyFailed, h1.len, fun hh => (State.wf_congr (by simp) (by simp)).trans (h1.wf hh)⟩

/-- A `power_on` not accepted, one over a system that failed assembly among them, changes nothing (60_exceptions.md R155). -/
theorem powerOn_refused {s : State} (h : ¬(s.life = .poweredOff ∧ s.assemblyFailed = false)) :
    powerOn s = ⟨s, .refused, []⟩ := by
  unfold powerOn; rw [if_neg h]; simp [refuse, commandResult]

/-- Everything an accepted `reset` can do: complete, or halt at its zeroing write (70_reset_and_hazards.md R181). -/
theorem softReset_cases (s : State) (h : s.life.accepts = true) :
   (∃ t, (softReset s) = commandResult s t .ok ∧ CmdFrame (resetRegisters s) t ∧ t.life = s.life) ∨
   (∃ n a v t, softReset s = commandResult s t (.fault (.deviceMisuse n a v none)) ∧ CmdFrame (resetRegisters s) t ∧ t.life = .haltedOnFault (.deviceMisuse n a v none) ∧ t.pc = s.pc) := by
  unfold softReset; rw [if_pos h]
  rcases zeroAll_frame [Config.resetZero] (resetRegisters s) with ⟨u, hu, h1, h2, h3⟩ | ⟨n, b, v, u, hu, h1, h2⟩
  · left
    obtain ⟨h4, h5⟩ := loadVector_frame u
    rw [hu]
    refine ⟨_, rfl, ?_, h5.trans h2⟩
    exact ⟨h4.a.trans h1.a, h4.x.trans h1.x, h4.y.trans h1.y, h4.sp.trans h1.sp, h4.p.trans h1.p, h4.cyc.trans h1.cyc, h4.mappings.trans h1.mappings, h4.assemblyFailed.trans h1.assemblyFailed, h4.len.trans h1.len, fun hh => (h4.wf (h1.wf hh))⟩
  · right
    rw [hu]
    refine ⟨n, b, v, _, rfl, ?_, rfl, h2⟩
    exact ⟨h1.a, h1.x, h1.y, h1.sp, h1.p, h1.cyc, h1.mappings, h1.assemblyFailed, h1.len, fun hh => (State.wf_congr (by simp) (by simp)).trans (h1.wf hh)⟩

/-- A refused command changes nothing. -/
theorem refuse_eq (s : State) : refuse s = ⟨s, .refused, []⟩ := by simp [refuse, commandResult]

/-- Everything the `step` command can do. -/
theorem stepCommand_cases (s : State) : (s.life.accepts = true ∧ ∃ t, step s = .next t ∧ stepCommand s = commandResult s t t.life.reply) ∨
  (s.life.accepts = false ∧ stepCommand s = ⟨s, .refused, []⟩) := by
  cases ha : s.life.accepts
  · right; refine ⟨rfl, ?_⟩
    have : step s = .refused (.commandRefused s.life) := by simp [step, ha]
    simp [stepCommand, this, refuse_eq]
  · left; obtain ⟨t, ht⟩ := step_next ha
    exact ⟨rfl, t, ht, by simp [stepCommand, ht]⟩

/-- Everything making a device can do. -/
theorem makeDevice_eq (s d) : makeDevice s d = if s.life = .poweredOff then ⟨{ s with devices := s.devices ++ [d] }, .ok, []⟩ else ⟨s, .refused, []⟩ := by
  unfold makeDevice; split <;> simp [commandResult, refuse_eq]

/-- Everything making a memory block can do. -/
theorem makeBlock_eq (s n ro len init) : makeBlock s n ro len init = if s.life = .poweredOff then (if blockLengthOk len = true then ⟨{ s with devices := s.devices ++ [⟨n, .block ro len (loadCells len init [])⟩] }, .ok, []⟩ else ⟨s.failAssembly, .configError (.invalidBlockLength len), []⟩) else ⟨s, .refused, []⟩ := by
  unfold makeBlock; rw [makeDevice_eq]
  by_cases h1 : s.life = .poweredOff <;> cases h2 : blockLengthOk len <;> simp [h1, commandResult, rejectAssembly]

/-- Everything `add_device` can do. -/
theorem addDevice_eq (s dev low high) : addDevice s dev low high = if s.life = .poweredOff ∧ dev < s.devices.length then (if low ≤ high then (match s.mappings.find? (·.intersects low high) with
      | some m => ⟨s.failAssembly, (.configError (.overlap (s.deviceName m))), []⟩
      | none => ⟨{ s with mappings := s.mappings ++ [⟨dev, low, high⟩] }, .ok, []⟩) else ⟨s.failAssembly, (.configError (.invalidRange low high)), []⟩) else ⟨s, .refused, []⟩ := by
  unfold addDevice
  split
  · simp only [rangeOk, decide_eq_true_eq]
    split
    · cases s.mappings.find? (·.intersects low high) <;> simp [commandResult, rejectAssembly]
    · simp [commandResult, rejectAssembly]
  · rw [refuse_eq]

/-- On a disjoint mapping list the first owner of an address is its only owner. -/
theorem disjoint_mem {ms : List Mapping} (h : disjointMappings ms = true) {a : Addr} {m : Mapping} (hm : m ∈ ms) (ho : m.owns a = true) : ms.find? (·.owns a) = some m := by
  induction ms with
  | nil => cases hm
  | cons k ks ih =>
    simp only [disjointMappings, Bool.and_eq_true, List.all_eq_true] at h
    rcases List.mem_cons.1 hm with rfl | hm'
    · simp [ho]
    · have h1 := h.1 m hm'
      have : k.owns a = false := by
        cases hk : k.owns a
        · rfl
        · simp [Mapping.owns] at hk ho
          simp [Mapping.intersects] at h1
          rcases h1 with h1 | h1
          · exact absurd (BitVec.le_trans ho.1 hk.2) (by simpa using h1)
          · exact absurd (BitVec.le_trans hk.1 ho.2) (by simpa using h1)
      simp [this, ih h.2 hm']

/-- The device-local address is the difference of the numbers (20_memory.md R45). -/
theorem off_toNat {s : State} {a : Addr} {m : Mapping} (h : s.lookup a = some m) : (a - m.low).toNat = a.toNat - m.low.toNat := by
  have := List.find?_some h
  simp [Mapping.owns] at this
  exact BitVec.toNat_sub_of_le this.1

/-- A loader's bytes are in canonical form, within the length. -/
theorem loadCells_wf (len : Nat) (init : List Host.Cell) (m : Memory) (hlen : 0 < len) (h : Memory.wf m = true) (hb : m.all (fun c => decide (c.1 < len)) = true) :
   Memory.wf (loadCells len init m) = true ∧ (loadCells len init m).all (fun c => decide (c.1 < len)) = true := by
  induction init generalizing m with
  | nil => exact ⟨h, hb⟩
  | cons c init ih =>
    obtain ⟨k, v⟩ := c
    exact ih _ (Memory.wf_write _ v h) (Memory.all_write hb (by simpa using Nat.mod_lt k hlen))

/-- A sound device keeps a state sound. -/
theorem wf_makeDevice {s : State} (h : s.wf = true) {d : Device} (hd : d.wf = true) : State.wf { s with devices := s.devices ++ [d] } = true := by
  obtain ⟨h1, h2, h3⟩ := State.wf_iff.1 h
  refine State.wf_iff.2 ⟨by simp only [List.all_append, h1, List.all_cons, hd, List.all_nil]; rfl, ?_, h3⟩
  simp only [List.all_eq_true] at h2 ⊢
  intro m hm; have := h2 m hm; simp [Mapping.wf] at this ⊢; exact ⟨this.1, by omega⟩

/-- A registration without overlap keeps the mapping list disjoint. -/
theorem disjoint_append {ms : List Mapping} {m : Mapping} (h : disjointMappings ms = true) (hm : ms.find? (·.intersects m.low m.high) = none) : disjointMappings (ms ++ [m]) = true := by
  induction ms with
  | nil => rfl
  | cons k ks ih =>
    simp only [disjointMappings, Bool.and_eq_true, List.all_eq_true] at h
    simp only [List.find?_cons] at hm
    split at hm
    · cases hm
    · next hk =>
      simp only [List.cons_append, disjointMappings, Bool.and_eq_true, List.all_eq_true, List.mem_append]
      refine ⟨?_, ih h.2 hm⟩
      rintro q (hq | hq)
      · exact h.1 q hq
      · simp at hq; subst hq; simpa using hk

end Sys2Proof.Machine
end

