-- ==== Sys2Proof/Laws/PerInstr.lean ====
section
/-! SUPPORT. A statement made per instruction: its encoding and its row of the opcode table agree. -/

namespace Sys2Proof.Laws

/-- The first byte of the encoding of `i` has a row in the opcode table that denotes an instruction and is well formed
(30_encoding.md R82), and as many operand bytes follow as the row's resolver consumes (R80). -/
def EncodingMatchesTable.Statement (i : Instr) : Prop :=
  ∃ op operands, encode i = op :: operands ∧ (Machine.opTable op).assigned = true ∧
    (Machine.opTable op).wellFormed = true ∧ operands.length = Machine.operandBytes (Machine.opTable op).resolver

/-- CLC. -/
theorem EncodingMatchesTable.clc : EncodingMatchesTable.Statement .clc :=
  ⟨_, _, rfl, by decide, by decide, rfl⟩

/-- SEC. -/
theorem EncodingMatchesTable.sec : EncodingMatchesTable.Statement .sec :=
  ⟨_, _, rfl, by decide, by decide, rfl⟩

/-- CLI. -/
theorem EncodingMatchesTable.cli : EncodingMatchesTable.Statement .cli :=
  ⟨_, _, rfl, by decide, by decide, rfl⟩

/-- SEI. -/
theorem EncodingMatchesTable.sei : EncodingMatchesTable.Statement .sei :=
  ⟨_, _, rfl, by decide, by decide, rfl⟩

/-- STY. -/
theorem EncodingMatchesTable.sty (ea : Addr) : EncodingMatchesTable.Statement (.sty ea) :=
  ⟨_, _, rfl, by decide, by decide, rfl⟩

/-- STA. -/
theorem EncodingMatchesTable.sta (ea : Addr) : EncodingMatchesTable.Statement (.sta ea) :=
  ⟨_, _, rfl, by decide, by decide, rfl⟩

/-- STX. -/
theorem EncodingMatchesTable.stx (ea : Addr) : EncodingMatchesTable.Statement (.stx ea) :=
  ⟨_, _, rfl, by decide, by decide, rfl⟩

/-- LDY. -/
theorem EncodingMatchesTable.ldyImm (v : Byte) : EncodingMatchesTable.Statement (.ldyImm v) :=
  ⟨_, _, rfl, by decide, by decide, rfl⟩

/-- LDX. -/
theorem EncodingMatchesTable.ldxImm (v : Byte) : EncodingMatchesTable.Statement (.ldxImm v) :=
  ⟨_, _, rfl, by decide, by decide, rfl⟩

/-- LDA. -/
theorem EncodingMatchesTable.ldaImm (v : Byte) : EncodingMatchesTable.Statement (.ldaImm v) :=
  ⟨_, _, rfl, by decide, by decide, rfl⟩

/-- LDY. -/
theorem EncodingMatchesTable.ldyAbs (ea : Addr) : EncodingMatchesTable.Statement (.ldyAbs ea) :=
  ⟨_, _, rfl, by decide, by decide, rfl⟩

/-- LDA. -/
theorem EncodingMatchesTable.ldaAbs (ea : Addr) : EncodingMatchesTable.Statement (.ldaAbs ea) :=
  ⟨_, _, rfl, by decide, by decide, rfl⟩

/-- LDX. -/
theorem EncodingMatchesTable.ldxAbs (ea : Addr) : EncodingMatchesTable.Statement (.ldxAbs ea) :=
  ⟨_, _, rfl, by decide, by decide, rfl⟩

/-- CLV. -/
theorem EncodingMatchesTable.clv : EncodingMatchesTable.Statement .clv :=
  ⟨_, _, rfl, by decide, by decide, rfl⟩

/-- CLD. -/
theorem EncodingMatchesTable.cld : EncodingMatchesTable.Statement .cld :=
  ⟨_, _, rfl, by decide, by decide, rfl⟩

/-- SED. -/
theorem EncodingMatchesTable.sed : EncodingMatchesTable.Statement .sed :=
  ⟨_, _, rfl, by decide, by decide, rfl⟩

end Sys2Proof.Laws
end

