-- ==== Sys2Proof/Laws/TableStep.lean ====
section
/-! SUPPORT. What the table-driven step can do, said once. -/

namespace Sys2Proof.Machine

/-- A resolver leaves CYC. -/
theorem resolve_cyc (r : Resolver) (s : State) : (resolve r s).1.cyc = s.cyc := by
  cases r <;> simp [resolve, resolveImplied, resolveImmediate, resolveAbsolute, fetchAddr_eq]

/-- A resolver leaves LIFE. -/
theorem resolve_life (r : Resolver) (s : State) : (resolve r s).1.life = s.life := by
  cases r <;> simp [resolve, resolveImplied, resolveImmediate, resolveAbsolute, fetchAddr_eq]

/-- Everything an effect can do: complete, or raise `DeviceMisuse`. -/
theorem applyEffect_cases (op : Byte) (e : Effect) (ea : Addr) (v : Byte) (s : State) :
    (∃ t, applyEffect op e ea v s = .done t ∧ t.cyc = s.cyc ∧ t.life = s.life) ∨
    (∃ n a x t, applyEffect op e ea v s = .raised (.deviceMisuse n a x (some op)) t ∧ t.cyc = s.cyc) := by
  cases e with
  | load r => exact .inl ⟨_, rfl, by simp, by simp⟩
  | flagOp f b => exact .inl ⟨_, rfl, by simp, by simp⟩
  | store r =>
    change (∃ t, memWrite (some op) s ea (s.reg r) = _ ∧ _) ∨ (∃ n a x t, memWrite (some op) s ea (s.reg r) = _ ∧ _)
    cases hw : memWrite (some op) s ea (s.reg r) with
    | done t => have := memWrite_frame hw; exact .inl ⟨t, rfl, this.cyc, this.life⟩
    | raised f t =>
      obtain ⟨i, n, len, cells, off, hl, rfl, rfl⟩ := memWrite_raised hw
      exact .inr ⟨n, ea, _, _, rfl, rfl⟩

/-- Running an entry of a cost other than zero completes with that cost, or halts with `DeviceMisuse` and no cost. -/
theorem runEntry_cyc (op : Byte) (e : OpEntry) (u : State) (hc : e.cycles ≠ 0) (hu : u.life = .running) :
    ((runEntry op e u).life = .running ∧ (runEntry op e u).cyc = u.cyc + e.cycles) ∨
    ((∃ n a x, (runEntry op e u).life = .haltedOnFault (.deviceMisuse n a x (some op))) ∧ (runEntry op e u).cyc = u.cyc) := by
  unfold runEntry
  simp only []
  rcases applyEffect_cases op e.effect (resolve e.resolver u).2.1 (resolve e.resolver u).2.2 (resolve e.resolver u).1 with ⟨t, h, h1, h2⟩ | ⟨n, a, x, t, h, h1⟩
  · left; rw [h]; simp [conclude, hc, h1, h2, resolve_cyc, resolve_life, hu]
  · right; rw [h]; exact ⟨⟨n, a, x, rfl⟩, by simp [conclude, h1, resolve_cyc]⟩

/-- The declared costs of the table (30_encoding.md R88). -/
theorem opTable_cost (op : Byte) (h : (opTable op).assigned = true) : (opTable op).cycles = if operandBytes (opTable op).resolver = 2 then 4 else 2 := by
  rcases opTable_cases op with ⟨_, h2⟩ | ⟨p, hp, _, _, q, hq, hq1, hq2⟩
  · rw [h2] at h; simp [OpEntry.assigned, unassignedEntry] at h
  · rw [hq2]; exact (by decide : ∀ q ∈ opRows, q.2.cycles = if operandBytes q.2.resolver = 2 then 4 else 2) q hq

/-- Everything a table-driven step that answers a next state did. -/
theorem stepTable_next_cases {table : Byte → OpEntry} {s t : State} (h : stepTable table s = .next t) : s.life.accepts = true ∧
   (((table s.nextOpcode).assigned = true ∧ (table s.nextOpcode).wellPaired = true ∧ t = runEntry s.nextOpcode (table s.nextOpcode) (fetchByte (s.setLife .running)).1) ∨
    ((table s.nextOpcode).assigned = false ∧ t = (fetchByte (s.setLife .running)).1.halt (.unimplementedOpcode s.nextOpcode))) := by
  unfold stepTable at h
  split at h
  · next ha =>
    refine ⟨ha, ?_⟩
    change (if (table s.nextOpcode).assigned = true then (if (table s.nextOpcode).wellPaired = true then _ else _) else _) = _ at h
    split at h
    · split at h
      · next h1 h2 => left; cases h; exact ⟨h1, h2, rfl⟩
      · cases h
    · next h1 => right; cases h; exact ⟨by simpa using h1, rfl⟩
  · cases h

/-- An accepted table-driven step, in terms of the opcode it reads. -/
theorem stepTable_eq {table : Byte → OpEntry} {s : State} (ha : s.life.accepts = true) : stepTable table s =
   if (table s.nextOpcode).assigned then (if (table s.nextOpcode).wellPaired then .next (runEntry s.nextOpcode (table s.nextOpcode) (fetchByte (s.setLife .running)).1) else .refused (.illPairedEntry s.nextOpcode)) else .next ((fetchByte (s.setLife .running)).1.halt (.unimplementedOpcode s.nextOpcode)) := by
  unfold stepTable; rw [if_pos ha]; rfl

end Sys2Proof.Machine
end

