-- ==== Sys2Proof/Tests/Slice0.lean ====
section
/-! SUPPORT. Tests: the checks of WellFormed, the decoder on words written out from the spec's encodings, single steps with the results that 95_test_vectors.md gives, and for every statement with hypotheses a witness that meets them. -/

namespace Sys2Proof.Tests

open Sys2Proof.Machine

/-! ### States and views -/

/-- The start state of the load and store vectors (95_test_vectors.md part 2), on the reference map, with `p`, `pc` and
`bytes` at `pc`; RAM[0x10] = 0x80. -/
def base (p : Byte) (pc : Addr) (bytes : List Byte) : State :=
  ({ State.reset with
      a := 0x11#8, x := 0x22#8, y := 0x33#8, p := p, pc := pc, cyc := 100, life := .running, trace := [] }.poke
    0x0010#16 0x80#8).pokeBytes pc bytes

/-- The same state without power. -/
def assembled : State := { base 0x34#8 0x8000#16 [] with life := .poweredOff }

/-- A powered-off machine whose one mapping is a read-only block over 0x4000 to 0xFFFF (vector Z4). -/
def romOnly : State :=
  { assembled with devices := [⟨"ROM", .block true 0xC000 []⟩], mappings := [⟨0, 0x4000#16, 0xFFFF#16⟩] }

/-- The state an outcome answers. -/
def next? : Host.Outcome State Fault Refusal → Option State
  | .next s => some s
  | _ => none

/-- A, X, Y, P, PC, CYC. -/
def core6 (s : State) : Byte × Byte × Byte × Byte × Addr × Nat := (s.a, s.x, s.y, s.p, s.pc, s.cyc)

/-- What one step leaves in A, X, Y, P, PC, CYC. -/
def stepCore (s : State) : Option (Byte × Byte × Byte × Byte × Addr × Nat) := (next? (step s)).map core6

/-- The bus transactions of one step, oldest first. -/
def stepTrace (s : State) : Option (List BusEvent) := (next? (step s)).map (·.trace.reverse)

/-- LIFE after one step. -/
def stepLife (s : State) : Option Life := (next? (step s)).map (·.life)

/-- DIAG after one step. -/
def stepDiag (s : State) : Option (List DiagEvent) := (next? (step s)).map (·.diag)

/-- The memory byte at `a` after one step. -/
def stepPeek (s : State) (a : Addr) : Option Byte := (next? (step s)).bind (·.peek a)

/-- P after one step of a one-byte instruction from status `p`. -/
def stepP (op p : Byte) : Option Byte := (next? (step (base p 0x8000#16 [op]))).map (·.p)

/-! ### WellFormed: an ill-formed term for each check -/

/-- R106: a store with Immediate, a load with Implied, a flag operation with Absolute. -/
theorem test_illPaired_refused :
    OpEntry.wellPaired ⟨.immediate, .store .a, 4, "STA"⟩ = false ∧
    OpEntry.wellPaired ⟨.implied, .load .a, 2, "LDA"⟩ = false ∧
    OpEntry.wellPaired ⟨.absolute, .flagOp .c true, 2, "SEC"⟩ = false := by decide

/-- R82: cost zero; and the empty mnemonic is no instruction. -/
theorem test_zeroCost_refused :
    OpEntry.wellFormed ⟨.implied, .flagOp .c false, 0, "CLC"⟩ = false ∧
    OpEntry.assigned ⟨.implied, .flagOp .c false, 0, ""⟩ = false := by decide

/-- R52: lengths 0 and 65537 are refused, 1 and 65536 are not. -/
theorem test_blockLength_refused :
    blockLengthOk 0 = false ∧ blockLengthOk 65537 = false ∧ blockLengthOk 1 = true ∧ blockLengthOk 65536 = true := by decide

/-- R43, vectors B21, B27: 0x5000 to 0x4FFF is refused, a single address is not. -/
theorem test_range_refused : rangeOk 0x5000#16 0x4FFF#16 = false ∧ rangeOk 0x4000#16 0x4000#16 = true := by decide

/-! ### The decoder, on bits written out from 30_encoding.md R84 -/

theorem test_decode_flagOps :
    decode [0b00011000#8] = .instr .clc [] ∧ decode [0b00111000#8] = .instr .sec [] ∧
    decode [0b01011000#8] = .instr .cli [] ∧ decode [0b01111000#8] = .instr .sei [] ∧
    decode [0b10111000#8] = .instr .clv [] ∧ decode [0b11011000#8] = .instr .cld [] ∧
    decode [0b11111000#8] = .instr .sed [] := by decide

theorem test_decode_loads_immediate :
    decode [0b10101001#8, 0b01000010#8] = .instr (.ldaImm 0x42#8) [] ∧
    decode [0b10100010#8, 0b01000010#8] = .instr (.ldxImm 0x42#8) [] ∧
    decode [0b10100000#8, 0b01000010#8] = .instr (.ldyImm 0x42#8) [] := by decide

theorem test_decode_loads_absolute :
    decode [0b10101101#8, 0b00110100#8, 0b00010010#8] = .instr (.ldaAbs 0x1234#16) [] ∧
    decode [0b10101110#8, 0b00110100#8, 0b00010010#8] = .instr (.ldxAbs 0x1234#16) [] ∧
    decode [0b10101100#8, 0b00110100#8, 0b00010010#8] = .instr (.ldyAbs 0x1234#16) [] := by decide

theorem test_decode_stores :
    decode [0b10001101#8, 0b00110100#8, 0b00010010#8] = .instr (.sta 0x1234#16) [] ∧
    decode [0b10001110#8, 0b00110100#8, 0b00010010#8] = .instr (.stx 0x1234#16) [] ∧
    decode [0b10001100#8, 0b00110100#8, 0b00010010#8] = .instr (.sty 0x1234#16) [] := by decide

/-- R85, vectors X1 to X4: unassigned opcodes; R86: too few bytes. -/
theorem test_decode_rejects :
    decode [0x00#8] = .rejected (.unassigned 0x00#8) ∧ decode [0xEA#8] = .rejected (.unassigned 0xEA#8) ∧
    decode [0x85#8] = .rejected (.unassigned 0x85#8) ∧ decode [0xFF#8] = .rejected (.unassigned 0xFF#8) ∧
    decode [] = .rejected .truncated ∧ decode [0xAD#8, 0x34#8] = .rejected .truncated := by decide

/-- Bits numbered as the opcode table numbers them: byte 1 is bits 15 to 8. Bits above `nbits` are 0. -/
theorem test_decodeTableWord :
    decodeTableWord 24 0x12348D = some (.sta 0x1234#16) ∧ decodeTableWord 16 0xFF42A9 = some (.ldaImm 0x42#8) ∧
    decodeTableWord 8 0xADAD = some (.ldaAbs 0x0000#16) ∧ decodeTableWord 8 0x00 = none := by decide

/-! ### Loads -/

theorem test_L20_lda_immediate :
    stepCore (base 0x34#8 0x8000#16 [0xA9#8, 0x00#8]) = some (0x00#8, 0x22#8, 0x33#8, 0x36#8, 0x8002#16, 102) := by decide

theorem test_L21_ldx_immediate :
    stepCore (base 0x34#8 0x8000#16 [0xA2#8, 0xFF#8]) = some (0x11#8, 0xFF#8, 0x33#8, 0xB4#8, 0x8002#16, 102) := by decide

theorem test_L22_ldy_immediate :
    stepCore (base 0x34#8 0x8000#16 [0xA0#8, 0x7F#8]) = some (0x11#8, 0x22#8, 0x7F#8, 0x34#8, 0x8002#16, 102) := by decide

theorem test_L23_lda_absolute :
    stepCore (base 0x34#8 0x8000#16 [0xAD#8, 0x10#8, 0x00#8]) = some (0x80#8, 0x22#8, 0x33#8, 0xB4#8, 0x8003#16, 104) := by
  decide

theorem test_L24_ldx_absolute_mirror :
    stepCore (base 0x34#8 0x8000#16 [0xAE#8, 0x10#8, 0x08#8]) = some (0x11#8, 0x80#8, 0x33#8, 0xB4#8, 0x8003#16, 104) := by
  decide

theorem test_L25_ldy_absolute_unmapped :
    stepCore (base 0x34#8 0x8000#16 [0xAC#8, 0x00#8, 0x50#8]) = some (0x11#8, 0x22#8, 0x00#8, 0x36#8, 0x8003#16, 104) ∧
    stepDiag (base 0x34#8 0x8000#16 [0xAC#8, 0x00#8, 0x50#8]) = some [.unmappedRead 0x5000#16] := by decide

/-- L26: the load reads its own opcode byte. -/
theorem test_L26_lda_own_opcode :
    stepTrace (base 0x34#8 0x8000#16 [0xAD#8, 0x00#8, 0x80#8]) =
      some [.read 0x8000#16 0xAD#8, .read 0x8001#16 0x00#8, .read 0x8002#16 0x80#8, .read 0x8000#16 0xAD#8] := by decide

/-- L27: the byte is the stub's draw, whatever it is. -/
theorem test_L27_lda_stub :
    (next? (step (base 0x34#8 0x8000#16 [0xAD#8, 0x02#8, 0x20#8]))).map (·.a) = some (Config.draw 0) := by rfl

/-- L6, L8: every bit of P set before. -/
theorem test_L6_L8_other_flags_kept :
    stepCore (base 0xFF#8 0x8000#16 [0xA9#8, 0x00#8]) = some (0x00#8, 0x22#8, 0x33#8, 0x7F#8, 0x8002#16, 102) ∧
    stepCore (base 0xFF#8 0x8000#16 [0xA9#8, 0x80#8]) = some (0x80#8, 0x22#8, 0x33#8, 0xFD#8, 0x8002#16, 102) :=
  ⟨by decide, by decide⟩

/-! ### Flag operations: F1 to F8 -/

theorem test_F1_F2_carry :
    stepP 0x18#8 0x00#8 = some 0x00#8 ∧ stepP 0x18#8 0xFF#8 = some 0xFE#8 ∧
    stepP 0x38#8 0x00#8 = some 0x01#8 ∧ stepP 0x38#8 0xFF#8 = some 0xFF#8 := by decide

theorem test_F3_F4_interrupt :
    stepP 0x58#8 0x00#8 = some 0x00#8 ∧ stepP 0x58#8 0xFF#8 = some 0xFB#8 ∧
    stepP 0x78#8 0x00#8 = some 0x04#8 ∧ stepP 0x78#8 0xFF#8 = some 0xFF#8 := by decide

theorem test_F5_overflow : stepP 0xB8#8 0x00#8 = some 0x00#8 ∧ stepP 0xB8#8 0xFF#8 = some 0xBF#8 := by decide

theorem test_F6_F7_decimal :
    stepP 0xD8#8 0x00#8 = some 0x00#8 ∧ stepP 0xD8#8 0xFF#8 = some 0xF7#8 ∧
    stepP 0xF8#8 0x00#8 = some 0x08#8 ∧ stepP 0xF8#8 0xFF#8 = some 0xFF#8 := by decide

/-- F8: PC wraps. -/
theorem test_F8_pc_wraps :
    stepCore (base 0x00#8 0xFFFF#16 [0x78#8]) = some (0x11#8, 0x22#8, 0x33#8, 0x04#8, 0x0000#16, 102) := by decide

/-! ### Stores -/

theorem test_T1_sta :
    stepTrace (base 0xB5#8 0x8000#16 [0x8D#8, 0x10#8, 0x00#8]) =
      some [.read 0x8000#16 0x8D#8, .read 0x8001#16 0x10#8, .read 0x8002#16 0x00#8, .read 0x0010#16 0x80#8,
        .write 0x0010#16 0x11#8] ∧
    stepPeek (base 0xB5#8 0x8000#16 [0x8D#8, 0x10#8, 0x00#8]) 0x0010#16 = some 0x11#8 := by decide

theorem test_T2_stx_last_byte_of_ram :
    stepPeek (base 0xB5#8 0x8000#16 [0x8E#8, 0xFF#8, 0x1F#8]) 0x07FF#16 = some 0x22#8 ∧
    stepCore (base 0xB5#8 0x8000#16 [0x8E#8, 0xFF#8, 0x1F#8]) = some (0x11#8, 0x22#8, 0x33#8, 0xB5#8, 0x8003#16, 104) := by
  decide

theorem test_T3_sty_mirror :
    stepPeek (base 0xB5#8 0x8000#16 [0x8C#8, 0x00#8, 0x08#8]) 0x0000#16 = some 0x33#8 := by decide

theorem test_T4_sta_unmapped :
    stepDiag (base 0xB5#8 0x8000#16 [0x8D#8, 0x00#8, 0x50#8]) =
      some [.unmappedRead 0x5000#16, .unmappedWrite 0x5000#16 0x11#8] := by decide

/-- T6: a store into the read-only block halts; the cost is not added and the byte stays. -/
theorem test_T6_sta_read_only :
    stepLife (base 0xB5#8 0x8000#16 [0x8D#8, 0x00#8, 0x80#8]) =
      some (.haltedOnFault (.deviceMisuse "PRG" 0x8000#16 0x11#8 (some 0x8D#8))) ∧
    stepCore (base 0xB5#8 0x8000#16 [0x8D#8, 0x00#8, 0x80#8]) = some (0x11#8, 0x22#8, 0x33#8, 0xB5#8, 0x8003#16, 100) ∧
    stepPeek (base 0xB5#8 0x8000#16 [0x8D#8, 0x00#8, 0x80#8]) 0x8000#16 = some 0x8D#8 := by decide

/-! ### Faults and refusals -/

theorem test_X1_unassigned :
    stepLife (base 0x34#8 0x8000#16 [0x00#8]) = some (.haltedOnFault (.unimplementedOpcode 0x00#8)) ∧
    stepCore (base 0x34#8 0x8000#16 [0x00#8]) = some (0x11#8, 0x22#8, 0x33#8, 0x34#8, 0x8001#16, 100) := by decide

theorem test_X6_fetch_unmapped :
    stepLife (base 0x34#8 0x5000#16 []) = some (.haltedOnFault (.unimplementedOpcode 0x00#8)) ∧
    stepDiag (base 0x34#8 0x5000#16 []) = some [.unmappedRead 0x5000#16] := by decide

theorem test_X8_refused_without_power : step assembled = .refused (.commandRefused .poweredOff) := by rfl

/-- A table of one entry of cost zero at every opcode. -/
def clcAtZero : Byte → OpEntry := fun _ => ⟨.implied, .flagOp .c false, 0, "CLC"⟩

/-- X9: the flag is cleared, no cost is added, then the fault. -/
theorem test_X9_zero_cost :
    (next? (stepTable clcAtZero (base 0x35#8 0x8000#16 [0x18#8]))).map core6 =
      some (0x11#8, 0x22#8, 0x33#8, 0x34#8, 0x8001#16, 100) ∧
    (next? (stepTable clcAtZero (base 0x35#8 0x8000#16 [0x18#8]))).map (·.life) =
      some (.haltedOnFault (.missingCycleCount 0x18#8)) := ⟨by decide, by decide⟩

/-! ### Assembly, power-on, reset -/

/-- Assembling the reference map and powering on gives `State.reset`, whatever the registers held. -/
theorem test_powerOn_gives_reset :
    (powerOn (runCommands (mapRefAssembly [] []) State.off)).state = State.reset ∧
    (powerOn (runCommands (mapRefAssembly [] []) State.off)).reply = .ok := ⟨rfl, rfl⟩

/-- Z2 and P1: the vector is little-endian, and the loader's image is where the map puts it. -/
theorem test_Z2_vector :
    (powerOn (runCommands (mapRefAssembly [] [(0x7FFC, 0x34#8), (0x7FFD, 0x12#8)]) State.off)).state.pc = 0x1234#16 := by
  decide

/-- Z3: no device at all. -/
theorem test_Z3_empty_bus :
    (powerOn State.off).events =
      [.unmappedWrite 0x4017#16 0x00#8, .unmappedWrite 0x4015#16 0x00#8, .unmappedRead 0xFFFC#16, .unmappedRead 0xFFFD#16] ∧
    (powerOn State.off).state.pc = 0x0000#16 := by
  constructor <;> rfl

/-- Z4: a read-only block over the zeroed addresses. -/
theorem test_Z4_power_on_misuse :
    (powerOn romOnly).reply = .fault (.deviceMisuse "ROM" 0x4017#16 0x00#8 none) := by rfl

/-- The start of vector Z5. -/
def z5 : State :=
  { base 0xB1#8 0x8005#16 [] with a := 0x42#8, x := 0x01#8, y := 0x02#8, cyc := 6 }.poke 0xFFFD#16 0x80#8

/-- Z5: A, X, Y and CYC stay, I is set, SP goes down by 3, PC is the vector. -/
theorem test_Z5_reset :
    core6 (softReset z5).state = (0x42#8, 0x01#8, 0x02#8, 0xB5#8, 0x8000#16, 6) ∧ (softReset z5).state.sp = 0xFA#8 ∧
    (softReset z5).state.life = .running := ⟨by decide, by decide, by decide⟩

/-- Z6 to Z8: SP wraps. -/
theorem test_Z6_Z8_sp_wraps :
    (resetRegisters ((base 0x34#8 0x8000#16 []).setSp 0x02#8)).sp = 0xFF#8 ∧
    (resetRegisters ((base 0x34#8 0x8000#16 []).setSp 0x01#8)).sp = 0xFE#8 ∧
    (resetRegisters ((base 0x34#8 0x8000#16 []).setSp 0x00#8)).sp = 0xFD#8 := by decide

/-- The machine of vectors B20 to B28: MAPPINGS = [(G, 0x2000, 0x3FFF), (H, 0x6000, 0x6FFF)], and device d. -/
def busGH : State :=
  { assembled with
    devices := [⟨"d", .stub⟩, ⟨"G", .stub⟩, ⟨"H", .stub⟩]
    mappings := [⟨1, 0x2000#16, 0x3FFF#16⟩, ⟨2, 0x6000#16, 0x6FFF#16⟩] }

theorem test_B20_B21_touching_ok :
    (addDevice busGH 0 0x0000#16 0x1FFF#16).reply = .ok ∧ (addDevice busGH 0 0x4000#16 0x4000#16).reply = .ok := by decide

theorem test_B22_B26_overlap :
    (addDevice busGH 0 0x1000#16 0x2000#16).reply = .configError (.overlap "G") ∧
    (addDevice busGH 0 0x3FFF#16 0x4FFF#16).reply = .configError (.overlap "G") ∧
    (addDevice busGH 0 0x2800#16 0x2FFF#16).reply = .configError (.overlap "G") ∧
    (addDevice busGH 0 0x0000#16 0xFFFF#16).reply = .configError (.overlap "G") ∧
    (addDevice busGH 0 0x2000#16 0x3FFF#16).reply = .configError (.overlap "G") := by decide

theorem test_B27_B28_range_and_first_overlap :
    (addDevice busGH 0 0x5000#16 0x4FFF#16).reply = .configError (.invalidRange 0x5000#16 0x4FFF#16) ∧
    (addDevice busGH 0 0x3000#16 0x6000#16).reply = .configError (.overlap "G") := by decide

/-- R155: after a configuration error power-on is refused. -/
theorem test_R155_never_powered_on :
    (powerOn (addDevice busGH 0 0x3000#16 0x6000#16).state).reply = .refused ∧
    (powerOn (addDevice busGH 0 0x0000#16 0x1FFF#16).state).reply = .ok := by decide

/-- B18, B19: a block of length 3 and of length 1 at offset 0xFFFF. -/
theorem test_B18_B19_short_blocks :
    (memRead { assembled with devices := [⟨"M", .block false 3 [(0, 0x77#8)]⟩], mappings := [⟨0, 0x0000#16, 0xFFFF#16⟩] }
      0xFFFF#16).2 = 0x77#8 ∧
    (memRead { assembled with devices := [⟨"M", .block false 1 [(0, 0x77#8)]⟩], mappings := [⟨0, 0x0000#16, 0xFFFF#16⟩] }
      0xABCD#16).2 = 0x77#8 := by decide

/-! ### The host's two definitions -/

/-- The first step after reset runs the placed instruction. -/
theorem test_first_step_after_reset :
    stepCore (State.reset.withFetchWord 16 0x42A9) = some (0x42#8, 0x00#8, 0x00#8, 0x34#8, 0x0002#16, 2) ∧
    stepCore (State.reset.withFetchWord 8 0x38) = some (0x00#8, 0x00#8, 0x00#8, 0x35#8, 0x0001#16, 2) :=
  ⟨by decide, by decide⟩

/-! ### The canonical form of memory -/

/-- Writing what an unlisted byte reads as removes the cell; a write in the middle keeps the order. -/
theorem test_memory_canonical :
    Memory.write [(3, 0x01#8)] 3 0x00#8 = [] ∧
    Memory.write [(3, 0x01#8), (9, 0x02#8)] 5 0x07#8 = [(3, 0x01#8), (5, 0x07#8), (9, 0x02#8)] ∧
    Memory.wf [(9, 0x02#8), (3, 0x01#8)] = false ∧ Memory.wf [(3, 0x00#8)] = false := by decide

/-! ### Witnesses: for each statement with hypotheses, states and operands that meet them, for each clause at a boundary -/

/-- The start state with `bytes` at 0x8000. -/
def at8000 (bytes : List Byte) : State := base 0x34#8 0x8000#16 bytes

/-- The start state with `AD 02 00` straddling the top of the address space (program P4). -/
def straddle : State := base 0x34#8 0xFFFF#16 [0xAD#8, 0x02#8, 0x00#8]

theorem witness_DecodedBytesAreTheEncoding :
    decode [0x8D#8, 0xFF#8, 0xFF#8, 0x18#8] = .instr (.sta 0xFFFF#16) [0x18#8] := by decide

theorem witness_StepRunsDecodedInstruction :
    straddle.life.accepts = true ∧ decode (fetchBytes 3 (straddle.setLife .running)).2 = .instr (.ldaAbs 0x0002#16) [] := by
  decide

theorem witness_StepRunsInstructionInMemory :
    straddle.life.accepts = true ∧ ∀ (k : Nat) (b : Byte), (encode (.ldaAbs 0x0002#16))[k]? = some b →
      straddle.peek (straddle.pc + BitVec.ofNat 16 k) = some b := by
  refine ⟨by decide, ?_⟩
  intro k b h
  match k with
  | 0 => cases h; decide
  | 1 => cases h; decide
  | 2 => cases h; decide
  | k + 3 => simp [encode, encodeAbs] at h

theorem witness_UnassignedOpcodeHaltsAfterOneRead :
    ((at8000 [0xEA#8]).life.accepts = true ∧ (opTable (at8000 [0xEA#8]).nextOpcode).mnemonic = "") ∧
    ((base 0x34#8 0x7FFF#16 []).life.accepts = true ∧ (base 0x34#8 0x7FFF#16 []).lookup 0x7FFF#16 = none) := by decide

theorem witness_AcceptedStepCompletesOrFaults :
    State.reset.life.accepts = true ∧ (at8000 []).life.accepts = true := by decide

theorem witness_StepAdvancesPcPastInstruction :
    ((next? (step (at8000 [0xFF#8]))).isSome = true ∧ (opTable (at8000 [0xFF#8]).nextOpcode).assigned = false) ∧
    ((next? (step straddle)).isSome = true ∧ (opTable straddle.nextOpcode).assigned = true) := by decide

theorem witness_CompletedStepAddsDeclaredCost :
    (next? (step straddle)).map (·.alive) = some true ∧
    (next? (step (at8000 [0x8D#8, 0x00#8, 0x80#8]))).map (·.alive) = some false := by decide

theorem witness_BusTransactionsOfAStep :
    (at8000 [0x8D#8, 0x10#8, 0x00#8]).life.accepts = true ∧
    decode (fetchBytes 3 ((at8000 [0x8D#8, 0x10#8, 0x00#8]).setLife .running)).2 = .instr (.sta 0x0010#16) [] ∧
    (next? (step (at8000 [0x8D#8, 0x10#8, 0x00#8]))).map (·.alive) = some true := by decide

theorem witness_LoadsLeaveMemoryAndAddCost :
    (Instr.ldyImm 0x00#8 ∈ [Instr.ldaImm 0x00#8, .ldxImm 0x00#8, .ldyImm 0x00#8]) ∧
    (Instr.ldxAbs 0x10#16 ∈ [Instr.ldaAbs 0x10#16, .ldxAbs 0x10#16, .ldyAbs 0x10#16]) := by decide

theorem witness_AbsoluteLoadOfMemoryByte :
    (at8000 []).peek 0x1810#16 = some 0x80#8 ∧ (at8000 [0x18#8]).peek 0x8000#16 = some 0x18#8 := by decide

theorem witness_AbsoluteLoadOfUnmappedOrStub :
    (DataReg.x, Instr.ldxAbs 0x4020#16) ∈
      [(DataReg.a, Instr.ldaAbs 0x4020#16), (.x, .ldxAbs 0x4020#16), (.y, .ldyAbs 0x4020#16)] ∧
    (at8000 []).lookup 0x4020#16 = none ∧ (at8000 []).lookup 0x7FFF#16 = none ∧
    (at8000 []).locate 0x401F#16 = some (4, ⟨"DISABLED", .stub⟩, 0x0007#16) ∧
    (at8000 []).locate 0x2000#16 = some (1, ⟨"GFX", .stub⟩, 0x0000#16) := by decide

theorem witness_FlagOperationsTouchOneBit :
    (Flag.v, false, Instr.clv) ∈
      [(Flag.c, false, Instr.clc), (.c, true, .sec), (.i, false, .cli), (.i, true, .sei), (.v, false, .clv),
        (.d, false, .cld), (.d, true, .sed)] := by decide

theorem witness_StoresWriteOrHalt :
    (opSTX, (at8000 []).x, Instr.stx 0x1FFF#16) ∈ [(opSTA, (at8000 []).a, Instr.sta 0x1FFF#16),
      (opSTX, (at8000 []).x, .stx 0x1FFF#16), (opSTY, (at8000 []).y, .sty 0x1FFF#16)] ∧
    (at8000 []).readOnlyAt 0x1FFF#16 = false ∧ (at8000 []).readOnlyAt 0x8000#16 = true ∧
    (at8000 []).readOnlyAt 0xFFFF#16 = true ∧ (at8000 []).lookup 0x7FFF#16 = none ∧
    (at8000 []).readOnlyAt 0x7FFF#16 = false := by decide

theorem witness_StoreWritesOneMemoryByte :
    ((at8000 []).a, Instr.sta 0x1FFF#16) ∈ [((at8000 []).a, Instr.sta 0x1FFF#16), ((at8000 []).x, .stx 0x1FFF#16),
      ((at8000 []).y, .sty 0x1FFF#16)] ∧
    (at8000 []).wf = true ∧ (at8000 []).cellOf 0x1FFF#16 = some (0, 0x07FF) ∧
    (at8000 []).readOnlyAt 0x1FFF#16 = false := by decide

theorem witness_StoreOutsideMemoryLeavesMemory :
    (at8000 []).cellOf 0x2000#16 = none ∧ (at8000 []).locate 0x2000#16 = some (1, ⟨"GFX", .stub⟩, 0x0000#16) ∧
    (at8000 []).cellOf 0x7FFF#16 = none := by decide

theorem witness_StoreSeenByNextFetch :
    (at8000 []).wf = true ∧ (at8000 []).cellOf 0x0010#16 = some (0, 0x10) ∧ (at8000 []).readOnlyAt 0x0010#16 = false ∧
    (at8000 []).cellOf 0x1810#16 = some (0, 0x10) := by decide

theorem witness_LookupAnswersTheOnlyOwner :
    busGH.wf = true ∧
    (busGH.mappings = [⟨1, 0x2000#16, 0x3FFF#16⟩] ++ ⟨2, 0x6000#16, 0x6FFF#16⟩ :: [] ∧
      (∀ k, k ∈ ([⟨1, 0x2000#16, 0x3FFF#16⟩] : List Mapping) → ¬(k.low ≤ 0x6FFF#16 ∧ (0x6FFF#16 : Addr) ≤ k.high)) ∧
      (0x6000#16 : Addr) ≤ 0x6FFF#16 ∧ (0x6FFF#16 : Addr) ≤ 0x6FFF#16) ∧
    (∀ m, m ∈ busGH.mappings → ¬(m.low ≤ 0x4000#16 ∧ (0x4000#16 : Addr) ≤ m.high)) ∧
    (⟨1, 0x2000#16, 0x3FFF#16⟩ : Mapping) ∈ busGH.mappings := by decide

theorem witness_BusReadDelegatesWithTranslation :
    (at8000 []).wf = true ∧
    ((⟨5, 0x8000#16, 0xFFFF#16⟩ : Mapping) ∈ (at8000 []).mappings ∧ (0x8000#16 : Addr) ≤ 0xFFFF#16 ∧
      (0xFFFF#16 : Addr) ≤ 0xFFFF#16 ∧ (at8000 []).devices[5]? = some ⟨"PRG", .block true 0x8000 []⟩) ∧
    ∀ m, m ∈ (at8000 []).mappings → ¬(m.low ≤ 0x4020#16 ∧ (0x4020#16 : Addr) ≤ m.high) := by decide

/-- A device that is neither block nor stub over 0x4000 to 0x4015, and a read-only block from 0x8000. -/
def withOther : State :=
  { at8000 [] with
    devices := [⟨"D", .external 3 9⟩, ⟨"PRG", .block true 0x8000 []⟩]
    mappings := [⟨0, 0x4000#16, 0x4015#16⟩, ⟨1, 0x8000#16, 0xFFFF#16⟩] }

theorem witness_BusWriteDelegatesWithTranslation :
    withOther.wf = true ∧
    ((⟨0, 0x4000#16, 0x4015#16⟩ : Mapping) ∈ withOther.mappings ∧ (0x4000#16 : Addr) ≤ 0x4015#16 ∧
      (0x4015#16 : Addr) ≤ 0x4015#16 ∧ withOther.devices[0]? = some ⟨"D", .external 3 9⟩) ∧
    (∀ m, m ∈ withOther.mappings → ¬(m.low ≤ 0x4016#16 ∧ (0x4016#16 : Addr) ≤ m.high)) ∧
    memWrite none withOther 0x8000#16 0x01#8 =
      .raised (.deviceMisuse "PRG" 0x8000#16 0x01#8 none) (withOther.note (.writeFatal 0x8000#16 0x01#8)) := by decide

theorem witness_AbsoluteAccessOfOtherDevice :
    withOther.locate 0x4015#16 = some (0, ⟨"D", .external 3 9⟩, 0x0015#16) ∧
    (DataReg.a, Instr.ldaAbs 0x4015#16) ∈
      [(DataReg.a, Instr.ldaAbs 0x4015#16), (.x, .ldxAbs 0x4015#16), (.y, .ldyAbs 0x4015#16)] ∧
    (withOther.x, Instr.stx 0x4015#16) ∈
      [(withOther.a, Instr.sta 0x4015#16), (withOther.x, .stx 0x4015#16), (withOther.y, .sty 0x4015#16)] := by decide

theorem witness_BlockReadIsModuloItsLength :
    (at8000 []).lookup 0x17FF#16 = some ⟨0, 0x0000#16, 0x1FFF#16⟩ ∧
    (at8000 []).devices[0]? = some ⟨"RAM", .block false 0x0800 [(0x10, 0x80#8)]⟩ ∧
    (0x1FFF#16).toNat = (0x17FF#16).toNat + 0x0800 ∧
    (at8000 []).lookup 0x1FFF#16 = some ⟨0, 0x0000#16, 0x1FFF#16⟩ := by decide

theorem witness_UnmappedReadIsZeroAndLogged :
    ∀ m, m ∈ (at8000 []).mappings → ¬(m.low ≤ 0x7FFF#16 ∧ (0x7FFF#16 : Addr) ≤ m.high) := by decide

theorem witness_UnmappedWriteIsDroppedAndLogged :
    ∀ m, m ∈ (at8000 []).mappings → ¬(m.low ≤ 0x4020#16 ∧ (0x4020#16 : Addr) ≤ m.high) := by decide

theorem witness_BusWriteReadsBack :
    (at8000 []).wf = true ∧ (at8000 []).cellOf 0x0810#16 = some (0, 0x10) ∧ (at8000 []).readOnlyAt 0x0810#16 = false ∧
    (at8000 []).cellOf 0x0010#16 = some (0, 0x10) ∧ (at8000 []).cellOf 0x8010#16 = some (5, 0x10) ∧
    (5, 0x10) ≠ (0, 0x10) := by decide

theorem witness_OnlyReadWriteBytesChange :
    (at8000 []).devices[0]? = some ⟨"RAM", .block false 0x0800 [(0x10, 0x80#8)]⟩ ∧
    (at8000 []).devices[5]? = some ⟨"PRG", .block true 0x8000 []⟩ := by decide

theorem witness_ImpliedAndImmediateResolve :
    (∃ t, resolveImmediate (at8000 [0x42#8]) = (t, 0x0000#16, 0x42#8)) ∧
    (at8000 [0x42#8]).peek (at8000 [0x42#8]).pc = some 0x42#8 ∧
    (base 0x34#8 0x5000#16 []).lookup (base 0x34#8 0x5000#16 []).pc = none := ⟨⟨_, rfl⟩, by decide, by decide⟩

/-- Vector A6. -/
def a6 : State := (base 0x34#8 0xFFFF#16 [0x10#8, 0x00#8]).poke 0x0010#16 0x77#8

theorem witness_AbsoluteResolves :
    a6.peek a6.pc = some 0x10#8 ∧ a6.peek (a6.pc + 1#16) = some 0x00#8 ∧
    (0x0010#16).toNat = (0x00#8).toNat * 256 + (0x10#8).toNat ∧ a6.peek 0x0010#16 = some 0x77#8 := by decide

/-- A table whose every entry is STA absolute at cost zero. -/
def staAtZero : Byte → OpEntry := fun _ => ⟨.absolute, .store .a, 0, "STA"⟩

theorem witness_ZeroCostEntryHaltsAfterItsEffect :
    (at8000 [0x18#8]).life.accepts = true ∧
    (clcAtZero (at8000 [0x18#8]).nextOpcode).assigned = true ∧ (clcAtZero (at8000 [0x18#8]).nextOpcode).wellPaired = true ∧
    (clcAtZero (at8000 [0x18#8]).nextOpcode).cycles = 0 ∧
    (next? (stepTable (fun _ => ⟨.implied, .flagOp .c false, 1, "CLC"⟩) (at8000 [0x18#8]))).map (·.alive) = some true ∧
    (staAtZero (at8000 [0x8D#8, 0x00#8, 0x80#8]).nextOpcode).assigned = true ∧
    (staAtZero (at8000 [0x8D#8, 0x00#8, 0x80#8]).nextOpcode).wellPaired = true ∧
    (staAtZero (at8000 [0x8D#8, 0x00#8, 0x80#8]).nextOpcode).cycles = 0 ∧
    (next? (stepTable (fun _ => ⟨.absolute, .store .a, 1, "STA"⟩) (at8000 [0x8D#8, 0x00#8, 0x80#8]))).map (·.alive) =
      some false := by decide

theorem witness_WellFormedTableRuns :
    (at8000 []).life.accepts = true ∧
    (∀ op : Byte, ((fun _ => ⟨.immediate, .load .y, 7, "LDY"⟩ : Byte → OpEntry) op).wellFormed = true) ∧
    ((fun _ => ⟨.immediate, .store .y, 7, "STY"⟩ : Byte → OpEntry) (at8000 []).nextOpcode).assigned = true ∧
    ((fun _ => ⟨.immediate, .store .y, 7, "STY"⟩ : Byte → OpEntry) (at8000 []).nextOpcode).wellPaired = false :=
  ⟨by decide, fun _ => rfl, by decide, by decide⟩

theorem witness_LifecycleFollowsTheTable :
    (∀ dev low high, HostCommand.reset = .addDevice dev low high → dev < assembled.devices.length) ∧
    HostCommand.reset.accepted assembled = false ∧ HostCommand.powerOn.accepted assembled = true ∧
    HostCommand.powerOn.accepted assembled.failAssembly = false ∧
    (5 < assembled.devices.length ∧ (HostCommand.addDevice 5 0x5000#16 0x5FFF#16).accepted assembled = true) :=
  ⟨fun _ _ _ h => (nomatch h), by decide, by decide, by decide, by decide⟩

theorem witness_HaltedIsForEver :
    ((at8000 []).halt (.unimplementedOpcode 0x00#8)).life = .haltedOnFault (.unimplementedOpcode 0x00#8) := by decide

theorem witness_PowerOnLeavesResetValues :
    assembled.life = .poweredOff ∧ assembled.assemblyFailed = false ∧ assembled.readOnlyAt 0x4017#16 = false ∧ assembled.readOnlyAt 0x4015#16 = false ∧
    assembled.cellOf 0x4017#16 = none ∧ assembled.cellOf 0x4015#16 = none ∧
    (powerOn assembled).state.peek 0xFFFC#16 = some 0x00#8 ∧ (powerOn assembled).state.peek 0xFFFD#16 = some 0x00#8 := by
  decide

theorem witness_SoftResetLeavesResetValues :
    (at8000 []).life.accepts = true ∧ (at8000 []).readOnlyAt 0x4015#16 = false ∧ (at8000 []).cellOf 0x4015#16 = none ∧
    (softReset (at8000 [])).state.peek 0xFFFC#16 = some 0x00#8 ∧
    (softReset (at8000 [])).state.peek 0xFFFD#16 = some 0x00#8 := by decide

/-- A read-write block of length 16 over 0x4010 to 0x401F, so that reset's write reaches its byte 5. -/
def ramAt4010 : State :=
  { at8000 [] with devices := [⟨"M", .block false 16 [(5, 0x77#8)]⟩], mappings := [⟨0, 0x4010#16, 0x401F#16⟩] }

/-- The same without power: power-on's writes reach its bytes 7 and 5. -/
theorem witness_PowerOnWritesMemory :
    (ramAt4010.setLife .poweredOff).life = .poweredOff ∧ (ramAt4010.setLife .poweredOff).assemblyFailed = false ∧
    (ramAt4010.setLife .poweredOff).readOnlyAt 0x4017#16 = false ∧
    (ramAt4010.setLife .poweredOff).readOnlyAt 0x4015#16 = false ∧ (ramAt4010.setLife .poweredOff).wf = true ∧
    (ramAt4010.setLife .poweredOff).cellOf 0x4017#16 = some (0, 7) ∧
    (ramAt4010.setLife .poweredOff).cellOf 0x4015#16 = some (0, 5) := by decide

theorem witness_SoftResetWritesMemory :
    ramAt4010.life.accepts = true ∧ ramAt4010.readOnlyAt 0x4015#16 = false ∧ ramAt4010.wf = true ∧
    ramAt4010.cellOf 0x4015#16 = some (0, 5) := by decide

theorem witness_ZeroingReadOnlyHaltsBeforeTheVector :
    romOnly.wf = true ∧ romOnly.life = .poweredOff ∧ romOnly.assemblyFailed = false ∧ romOnly.readOnlyAt 0x4017#16 = true ∧
    (romOnly.setLife .running).wf = true ∧ (romOnly.setLife .running).life.accepts = true ∧
    (romOnly.setLife .running).readOnlyAt 0x4015#16 = true := by decide

/-- A read-only block up to 0x4015, a read-write one from 0x4016: power-on's first write completes, its second faults. -/
def romTo4015 : State :=
  { assembled with
    devices := [⟨"ROM", .block true 8 []⟩, ⟨"M", .block false 16 [(1, 0x77#8)]⟩]
    mappings := [⟨0, 0x4010#16, 0x4015#16⟩, ⟨1, 0x4016#16, 0x401F#16⟩] }

theorem witness_ZeroingReadOnlyHaltsAtTheSecondWrite :
    romTo4015.wf = true ∧ romTo4015.life = .poweredOff ∧ romTo4015.assemblyFailed = false ∧ romTo4015.readOnlyAt 0x4017#16 = false ∧
    romTo4015.readOnlyAt 0x4015#16 = true ∧ romTo4015.cellOf 0x4017#16 = some (1, 1) := by decide

/-- 70_reset_and_hazards.md R180: the second write faults, the first has been made. -/
theorem test_power_on_misuse_at_second_write :
    (powerOn romTo4015).reply = .fault (.deviceMisuse "ROM" 0x4015#16 0x00#8 none) ∧
    (powerOn romTo4015).state.peek 0x4017#16 = some 0x00#8 := by decide

theorem witness_AddDeviceRegistersOrNamesOverlap :
    busGH.wf = true ∧ busGH.life = .poweredOff ∧ 0 < busGH.devices.length ∧ (0x4FFF#16 : Addr) < 0x5000#16 := by decide

/-- B21: a single address past the end of a mapping shares none with any. -/
theorem witness_AddDeviceRegisters :
    (0x4000#16 : Addr) ≤ 0x4000#16 ∧
    ∀ m, m ∈ busGH.mappings → ¬∃ a, m.owns a = true ∧ 0x4000#16 ≤ a ∧ a ≤ 0x4000#16 := by
  refine ⟨by decide, ?_⟩
  rintro m hm ⟨a, h1, h2, h3⟩
  have ha : a = 0x4000#16 := BitVec.le_antisymm h3 h2
  subst ha
  exact absurd h1 ((by decide : ∀ m ∈ busGH.mappings, ¬m.owns 0x4000#16 = true) m hm)

/-- As B28, the new range meeting the first mapping in its last address only, the second in its first. -/
theorem witness_AddDeviceNamesOverlap :
    (0x3FFF#16 : Addr) ≤ 0x6000#16 ∧
    busGH.mappings = [] ++ ⟨1, 0x2000#16, 0x3FFF#16⟩ :: [⟨2, 0x6000#16, 0x6FFF#16⟩] ∧
    (∃ a, Mapping.owns ⟨1, 0x2000#16, 0x3FFF#16⟩ a = true ∧ 0x3FFF#16 ≤ a ∧ a ≤ 0x6000#16) ∧
    busGH.devices[1]? = some ⟨"G", .stub⟩ := ⟨by decide, rfl, ⟨0x3FFF#16, by decide⟩, rfl⟩

theorem witness_IllegalBlockLengthIsRefused :
    assembled.life = .poweredOff ∧ (0 = 0 ∨ 65536 < 0) ∧ (65537 = 0 ∨ 65536 < 65537) ∧
    (1 ≤ 65536 ∧ 65536 ≤ 65536 ∧ ∀ e, e ∈ ([(65537, 0x01#8)] : List Host.Cell) → e.1 % 65536 ≠ 65535) := by decide

theorem witness_FailedAssemblyIsNeverPoweredOn :
    (runCommand (.addDevice 0 0x3FFF#16 0x4FFF#16) busGH).reply = .configError (.overlap "G") ∧
    (runCommand (.addDevice 0 0x0001#16 0x0000#16) busGH).reply = .configError (.invalidRange 0x0001#16 0x0000#16) ∧
    (runCommand (.makeBlock "M" true 65537 []) busGH).reply = .configError (.invalidBlockLength 65537) := by decide

theorem witness_StepKeepsSoundState :
    straddle.wf = true ∧ (next? (step straddle)).isSome = true := by decide

theorem witness_EveryCommandKeepsSoundState : assembled.wf = true ∧ busGH.wf = true := by decide

theorem witness_OnlyPowerOnAndResetTouchSp :
    HostCommand.step ≠ .powerOn ∧ HostCommand.step ≠ .reset ∧ assembled.life = .poweredOff ∧
    assembled.assemblyFailed = false ∧
    (at8000 []).life.accepts = true ∧ (next? (step straddle)).isSome = true := by decide

theorem witness_StepIgnoresFlagsSpAndCycles :
    (next? (step straddle)).isSome = true ∧ (next? (step (at8000 [0xFF#8]))).isSome = true := by decide

theorem witness_MappingsAreFixedAfterAssembly : (at8000 []).life ≠ .poweredOff ∧ assembled.life = .poweredOff := by decide

theorem witness_StepNeverSetsOverflowNorReservedBits :
    (next? (step straddle)).isSome = true ∧ straddle.flag .v = false ∧ straddle.flag .b4 = true := by decide

end Sys2Proof.Tests
end

section
/-! SUPPORT. A step reads none of P, SP and CYC (10_state.md R14, R19, R23): each operation it is made of commutes with putting other values there (O44). -/

namespace Sys2Proof.Machine

/-! ### States alike but for P, SP and CYC -/

/-- `s` with other values in P, SP and CYC, which no instruction reads (10_state.md R14, R19, R23). -/
def State.withPSpCyc (s : State) (p sp : Byte) (n : Nat) : State := { s with p := p, sp := sp, cyc := n }

/-- A state has its own P, SP and CYC. -/
theorem withPSpCyc_self (s : State) : s.withPSpCyc s.p s.sp s.cyc = s := rfl

@[simp] theorem withPSpCyc_locate (s : State) (p sp : Byte) (n : Nat) (a : Addr) :
    (s.withPSpCyc p sp n).locate a = s.locate a := rfl

@[simp] theorem withPSpCyc_pc (s : State) (p sp : Byte) (n : Nat) : (s.withPSpCyc p sp n).pc = s.pc := rfl

@[simp] theorem withPSpCyc_reg (s : State) (p sp : Byte) (n : Nat) (r : DataReg) :
    (s.withPSpCyc p sp n).reg r = s.reg r := by cases r <;> rfl

/-- A load's register write does not meet P, SP or CYC. -/
theorem withPSpCyc_setReg (s : State) (p sp : Byte) (n : Nat) (r : DataReg) (v : Byte) :
    (s.withPSpCyc p sp n).setReg r v = (s.setReg r v).withPSpCyc p sp n := by cases r <;> rfl

/-- A bus read neither reads nor changes P, SP and CYC. -/
theorem memRead_withPSpCyc (s : State) (p sp : Byte) (n : Nat) (a : Addr) :
    memRead (s.withPSpCyc p sp n) a = ((memRead s a).1.withPSpCyc p sp n, (memRead s a).2) := by
  simp only [memRead, withPSpCyc_locate]
  rcases s.locate a with _ | ⟨i, ⟨name, kind⟩, off⟩
  · rfl
  · cases kind <;> rfl

/-- A byte fetched is the same under any P, SP and CYC. -/
theorem fetchByte_withPSpCyc (s : State) (p sp : Byte) (n : Nat) :
    fetchByte (s.withPSpCyc p sp n) = ((fetchByte s).1.withPSpCyc p sp n, (fetchByte s).2) := by
  unfold fetchByte
  rw [withPSpCyc_pc, memRead_withPSpCyc]
  rfl

theorem fetchBytes_withPSpCyc (k : Nat) (s : State) (p sp : Byte) (n : Nat) :
    fetchBytes k (s.withPSpCyc p sp n) = ((fetchBytes k s).1.withPSpCyc p sp n, (fetchBytes k s).2) := by
  induction k generalizing s with
  | zero => rfl
  | succ k ih => simp only [fetchBytes_succ, fetchByte_withPSpCyc, ih]

/-- Apply `g` to the state in which effects ended. -/
def Effected.mapState (g : State → State) : Effected → Effected
  | .done s => .done (g s)
  | .raised f s => .raised f (g s)

/-- A bus write neither reads nor changes P, SP and CYC. -/
theorem memWrite_withPSpCyc (op : Option Byte) (s : State) (p sp : Byte) (n : Nat) (a : Addr) (v : Byte) :
    memWrite op (s.withPSpCyc p sp n) a v = (memWrite op s a v).mapState (·.withPSpCyc p sp n) := by
  simp only [memWrite, withPSpCyc_locate]
  rcases s.locate a with _ | ⟨i, ⟨name, kind⟩, off⟩
  · rfl
  · rcases kind with ⟨_ | _, _, _⟩ | _ | _ <;> rfl

/-! ### Writing several flags -/

/-- The flags of the list written to their values, the last of the list first. -/
def putFlags (fs : List (Flag × Bool)) (p : Byte) : Byte := fs.foldr (fun w q => putFlag w.1 w.2 q) p

/-- A flag that is written has the same value whatever P was. -/
theorem getFlag_putFlags_of_mem {fs : List (Flag × Bool)} {f : Flag} (h : f ∈ fs.map Prod.fst) (p q : Byte) :
    getFlag f (putFlags fs p) = getFlag f (putFlags fs q) := by
  induction fs with
  | nil => cases h
  | cons w fs ih =>
    change getFlag f (putFlag w.1 w.2 (putFlags fs p)) = getFlag f (putFlag w.1 w.2 (putFlags fs q))
    by_cases hw : f = w.1
    · simp [hw]
    · rw [getFlag_putFlag_of_ne _ _ hw, getFlag_putFlag_of_ne _ _ hw]
      exact ih (by simpa [hw] using h)

/-- A flag that is not written keeps its value. -/
theorem getFlag_putFlags_of_not_mem {fs : List (Flag × Bool)} {f : Flag} (h : f ∉ fs.map Prod.fst) (p : Byte) :
    getFlag f (putFlags fs p) = getFlag f p := by
  induction fs with
  | nil => rfl
  | cons w fs ih =>
    obtain ⟨hw, hfs⟩ : f ≠ w.1 ∧ f ∉ fs.map Prod.fst := by simpa using h
    exact (getFlag_putFlag_of_ne _ _ hw).trans (ih hfs)

/-! ### Runs that do not read P, SP or CYC -/

/-- From `s`, `run` answers one next state `t` whatever P, SP and CYC hold, but for these three: it writes the flags `fs`,
leaves SP and adds `m` to CYC. -/
def IgnoresPSpCyc (run : State → Host.Outcome State Fault Refusal) (s : State) : Prop :=
  ∃ (t : State) (fs : List (Flag × Bool)) (m : Nat), ∀ (p sp : Byte) (n : Nat),
    run (s.withPSpCyc p sp n) = .next (t.withPSpCyc (putFlags fs p) sp (n + m))

/-- The meaning of an instruction is one of the four shared operations, in every state. -/
theorem exec_class (i : Instr) :
    (∃ op r v, exec i = loadImmediate op r v) ∨ (∃ op f b, exec i = flagImplied op f b) ∨
    (∃ op r ea, exec i = loadAbsolute op r ea) ∨ (∃ op r ea, exec i = storeAbsolute op r ea) := by
  cases i with
  | clc => exact .inr (.inl ⟨opCLC, .c, false, rfl⟩)
  | sec => exact .inr (.inl ⟨opSEC, .c, true, rfl⟩)
  | cli => exact .inr (.inl ⟨opCLI, .i, false, rfl⟩)
  | sei => exact .inr (.inl ⟨opSEI, .i, true, rfl⟩)
  | sty ea => exact .inr (.inr (.inr ⟨opSTY, .y, ea, rfl⟩))
  | sta ea => exact .inr (.inr (.inr ⟨opSTA, .a, ea, rfl⟩))
  | stx ea => exact .inr (.inr (.inr ⟨opSTX, .x, ea, rfl⟩))
  | ldyImm v => exact .inl ⟨opLDYimm, .y, v, rfl⟩
  | ldxImm v => exact .inl ⟨opLDXimm, .x, v, rfl⟩
  | ldaImm v => exact .inl ⟨opLDAimm, .a, v, rfl⟩
  | ldyAbs ea => exact .inr (.inr (.inl ⟨opLDYabs, .y, ea, rfl⟩))
  | ldaAbs ea => exact .inr (.inr (.inl ⟨opLDAabs, .a, ea, rfl⟩))
  | ldxAbs ea => exact .inr (.inr (.inl ⟨opLDXabs, .x, ea, rfl⟩))
  | clv => exact .inr (.inl ⟨opCLV, .v, false, rfl⟩)
  | cld => exact .inr (.inl ⟨opCLD, .d, false, rfl⟩)
  | sed => exact .inr (.inl ⟨opSED, .d, true, rfl⟩)

/-- A load writes Z and N, and its cost is that of its resolver. -/
theorem loadImmediate_ignoresPSpCyc (op : Byte) (r : DataReg) (v : Byte) (s : State) :
    IgnoresPSpCyc (loadImmediate op r v) s := by
  refine ⟨s.setReg r v, [(.n, v.getLsbD 7), (.z, v == 0x00#8)], cyclesImmediate, fun p sp n => ?_⟩
  rw [loadImmediate_eq, withPSpCyc_setReg]
  rfl

theorem loadAbsolute_ignoresPSpCyc (op : Byte) (r : DataReg) (ea : Addr) (s : State) :
    IgnoresPSpCyc (loadAbsolute op r ea) s := by
  refine ⟨(memRead s ea).1.setReg r (memRead s ea).2,
    [(.n, (memRead s ea).2.getLsbD 7), (.z, (memRead s ea).2 == 0x00#8)], cyclesAbsolute, fun p sp n => ?_⟩
  rw [loadAbsolute_eq, memRead_withPSpCyc, withPSpCyc_setReg]
  rfl

/-- A flag operation writes its flag. -/
theorem flagImplied_ignoresPSpCyc (op : Byte) (f : Flag) (b : Bool) (s : State) :
    IgnoresPSpCyc (flagImplied op f b) s :=
  ⟨s, [(f, b)], cyclesImplied, fun _ _ _ => rfl⟩

/-- A store writes no flag; it adds its cost where the write completes and nothing where it halts. -/
theorem storeAbsolute_ignoresPSpCyc (op : Byte) (r : DataReg) (ea : Addr) (s : State) :
    IgnoresPSpCyc (storeAbsolute op r ea) s := by
  have hrun : ∀ p sp n, storeAbsolute op r ea (s.withPSpCyc p sp n) = .next (conclude op cyclesAbsolute
      ((memWrite (some op) (memRead s ea).1 ea (s.reg r)).mapState (·.withPSpCyc p sp n))) := by
    intro p sp n
    simp only [storeAbsolute, storeEffect, memRead_withPSpCyc, memWrite_withPSpCyc, withPSpCyc_reg, memRead_reg]
  cases hw : memWrite (some op) (memRead s ea).1 ea (s.reg r) with
  | done t => exact ⟨t, [], cyclesAbsolute, fun p sp n => by rw [hrun, hw]; rfl⟩
  | raised f t => exact ⟨t.halt f, [], 0, fun p sp n => by rw [hrun, hw]; rfl⟩

theorem exec_ignoresPSpCyc (i : Instr) (s : State) : IgnoresPSpCyc (exec i) s := by
  rcases exec_class i with ⟨op, r, v, h⟩ | ⟨op, f, b, h⟩ | ⟨op, r, ea, h⟩ | ⟨op, r, ea, h⟩ <;> rw [h]
  · exact loadImmediate_ignoresPSpCyc op r v s
  · exact flagImplied_ignoresPSpCyc op f b s
  · exact loadAbsolute_ignoresPSpCyc op r ea s
  · exact storeAbsolute_ignoresPSpCyc op r ea s

/-- An accepted step runs what it fetches. -/
theorem step_of_accepts {s : State} (h : s.life.accepts = true) :
    step s = runFetched (fetchInstr (s.setLife .running)) := if_pos h

/-- An accepted step reads none of P, SP and CYC: neither the fetch nor the instruction does. -/
theorem step_ignoresPSpCyc {s : State} (h : s.life.accepts = true) : IgnoresPSpCyc step s := by
  have hstep : ∀ p sp n, step (s.withPSpCyc p sp n) =
      runFetched (fetchInstr ((s.setLife .running).withPSpCyc p sp n)) := fun p sp n => step_of_accepts h
  generalize s.setLife .running = u at hstep
  cases hf : fetchInstr u with
  | instr i v =>
    obtain ⟨k, -, hd⟩ := fetchInstr_instr hf
    obtain ⟨t, fs, m, hexec⟩ := exec_ignoresPSpCyc i (fetchBytes k u).1
    refine ⟨t, fs, m, fun p sp n => ?_⟩
    have hfetch : fetchInstr (u.withPSpCyc p sp n) = .instr i ((fetchBytes k u).1.withPSpCyc p sp n) := by
      rw [fetchInstr_of_decode (n := k) (by rwa [fetchBytes_withPSpCyc]), fetchBytes_withPSpCyc]
    rw [hstep, hfetch]
    exact hexec p sp n
  | unassigned op v =>
    obtain ⟨-, rfl, hs⟩ := fetchInstr_unassigned hf
    refine ⟨(fetchByte u).1.halt (.unimplementedOpcode (fetchByte u).2), [], 0, fun p sp n => ?_⟩
    rw [hstep, fetch_of_unassigned (by rwa [fetchByte_withPSpCyc]), fetchByte_withPSpCyc]
    rfl

/-- What a run that ignores P, SP and CYC made of `s`, told by its outcome there. -/
theorem IgnoresPSpCyc.of_next {run : State → Host.Outcome State Fault Refusal} {s t : State}
    (h : IgnoresPSpCyc run s) (ht : run s = .next t) :
    ∃ (fs : List (Flag × Bool)) (m : Nat), t.p = putFlags fs s.p ∧ t.cyc = s.cyc + m ∧
      ∀ p sp n, run (s.withPSpCyc p sp n) = .next (t.withPSpCyc (putFlags fs p) sp (n + m)) := by
  obtain ⟨u, fs, m, hrun⟩ := h
  have hs := hrun s.p s.sp s.cyc
  rw [withPSpCyc_self, ht, Host.Outcome.next.injEq] at hs
  subst hs
  exact ⟨fs, m, rfl, rfl, hrun⟩

/-- Settles O44: the flags a step writes, their values and its cost come from the fetch and the instruction alone. -/
theorem stepIgnoresFlagsSpAndCycles : Obligations.StepIgnoresFlagsSpAndCycles := by
  unfold Obligations.StepIgnoresFlagsSpAndCycles
  intro s t ht
  obtain ⟨fs, m, hp, hcyc, hrun⟩ := (step_ignoresPSpCyc (step_cases ht).1).of_next ht
  refine ⟨fs.map Prod.fst, m, hcyc, fun f hf => ?_,
    fun p sp n => ⟨putFlags fs p, hrun p sp n, fun f => ⟨fun hf => ?_, fun hf => ?_⟩⟩⟩
  · rw [State.flag, hp]; exact getFlag_putFlags_of_not_mem hf s.p
  · rw [State.flag, hp]; exact getFlag_putFlags_of_mem hf p s.p
  · exact getFlag_putFlags_of_not_mem hf p

end Sys2Proof.Machine
end

section
/-! SUPPORT. Where a step leaves PC (10_state.md R15): the bytes fetched are as many as the table's resolver consumes, and no instruction moves PC (O10). -/

namespace Sys2Proof

/-- How many operand bytes the format of an opcode has (30_encoding.md R80). -/
def OpShape.operandBytes : OpShape → Nat
  | .implied _ => 0
  | .immediate _ => 1
  | .absolute _ => 2

/-- A whole instruction is an opcode byte of some format and that format's operand bytes. -/
theorem shape_of_decode {op : Byte} {bs : List Byte} {i : Instr} (h : decode (op :: bs) = .instr i []) :
    ∃ sh, opShape op = some sh ∧ bs.length = sh.operandBytes := by
  cases hs : opShape op with
  | none => simp [decode, hs] at h
  | some sh =>
    refine ⟨sh, rfl, ?_⟩
    cases sh with
    | implied j =>
      obtain ⟨-, rfl⟩ : j = i ∧ bs = [] := by simpa [decode, hs] using h
      rfl
    | immediate mk =>
      rcases bs with _ | ⟨v, bs⟩
      · simp [decode, hs] at h
      · obtain ⟨-, rfl⟩ : mk v = i ∧ bs = [] := by simpa [decode, hs] using h
        rfl
    | absolute mk =>
      rcases bs with _ | ⟨lo, _ | ⟨hi, bs⟩⟩
      · simp [decode, hs] at h
      · simp [decode, hs] at h
      · obtain ⟨-, rfl⟩ : mk (joinBytes hi lo) = i ∧ bs = [] := by simpa [decode, hs] using h
        rfl

end Sys2Proof

namespace Sys2Proof.Machine

/-- The format of an opcode has as many operand bytes as the resolver of its table entry consumes. -/
theorem operandBytes_of_opShape {op : Byte} {sh : OpShape} (h : opShape op = some sh) :
    sh.operandBytes = operandBytes (opTable op).resolver := by
  have rows : ∀ p ∈ opShapes, p.2.operandBytes = operandBytes (opTable p.1).resolver := by decide
  rcases opShape_cases op with hn | ⟨p, hp, rfl, hs⟩
  · rw [hn] at h; cases h
  · rw [hs, Option.some.injEq] at h
    exact h ▸ rows p hp

/-- The bytes fetched for a whole instruction are its opcode byte and the operand bytes of its format. -/
theorem shape_of_fetched {s : State} {n : Nat} {i : Instr} (h : decode (fetchBytes n s).2 = .instr i []) :
    ∃ sh, opShape (fetchByte s).2 = some sh ∧ n = sh.operandBytes + 1 := by
  cases n with
  | zero => cases h
  | succ n =>
    rw [fetchBytes_succ] at h
    obtain ⟨sh, hs, hlen⟩ := shape_of_decode h
    exact ⟨sh, hs, by rw [← hlen, fetchBytes_length]⟩

/-- What an instruction that answered `t` left. -/
theorem execFrame_of_next {i : Instr} {s t : State} (h : exec i s = .next t) : ExecFrame s t := by
  obtain ⟨u, hu, hframe⟩ := exec_frame i s
  rw [hu, Host.Outcome.next.injEq] at h
  exact h ▸ hframe

/-- Where a step leaves PC: past an unassigned opcode byte, or past the whole instruction. -/
theorem step_pc {s t : State} (h : step s = .next t) :
    (opShape s.nextOpcode = none ∧ t.pc = s.pc + 1#16) ∨
    ∃ sh, opShape s.nextOpcode = some sh ∧ t.pc = s.pc + 1#16 + BitVec.ofNat 16 sh.operandBytes := by
  rcases (step_cases h).2 with ⟨hs, rfl⟩ | ⟨n, i, hd, he, -⟩
  · exact .inl ⟨hs, by simp⟩
  · obtain ⟨sh, hs, rfl⟩ := shape_of_fetched hd
    refine .inr ⟨sh, hs, ?_⟩
    rw [(execFrame_of_next he).pc, (fetchBytes_frame _ _).pc, fetchBytes_length, setLife_pc, Nat.add_comm,
      BitVec.ofNat_add, BitVec.add_assoc]

/-- Settles O10: the operand bytes of an opcode's format are those its table entry's resolver consumes. -/
theorem stepAdvancesPcPastInstruction : Obligations.StepAdvancesPcPastInstruction := by
  unfold Obligations.StepAdvancesPcPastInstruction
  intro s t h
  rcases step_pc h with ⟨hs, hpc⟩ | ⟨sh, hs, hpc⟩
  · exact ⟨fun _ => hpc, fun ha => absurd hs ((opTable_assigned_iff _).1 ha)⟩
  · have ha := (opTable_assigned_iff s.nextOpcode).2 (by simp [hs])
    exact ⟨fun hn => absurd ha (by simp [hn]), fun _ => operandBytes_of_opShape hs ▸ hpc⟩

end Sys2Proof.Machine
end

section
/-! SUPPORT. What no command undoes (10_state.md R25, R26): DIAG only grows, and no block becomes another device (O28, O47). -/

namespace Sys2Proof.Machine

/-! ### What grows and what stays: DIAG, and the devices -/

/-- `e` may stand where `d` stood: a memory block keeps its name, flag and length, a read-only one its bytes too. -/
def Device.KeepsBlock (d e : Device) : Prop :=
  ∀ name ro len cells, d = ⟨name, .block ro len cells⟩ →
    ∃ cells', e = ⟨name, .block ro len cells'⟩ ∧ (ro = true → cells' = cells)

theorem Device.KeepsBlock.rfl {d : Device} : d.KeepsBlock d :=
  fun _ _ _ cells h => ⟨cells, h, fun _ => .refl cells⟩

theorem Device.KeepsBlock.trans {d e f : Device} (h : d.KeepsBlock e) (h' : e.KeepsBlock f) : d.KeepsBlock f := by
  intro name ro len cells hd
  obtain ⟨cells', he, hc⟩ := h name ro len cells hd
  obtain ⟨cells'', hf, hc'⟩ := h' name ro len cells' he
  exact ⟨cells'', hf, fun hr => (hc' hr).trans (hc hr)⟩

/-- A device that is no block has nothing to keep. -/
theorem Device.KeepsBlock.of_external {name : String} {id st : Nat} {e : Device} :
    Device.KeepsBlock ⟨name, .external id st⟩ e :=
  fun _ _ _ _ h => by cases h

/-- A read-write block keeps all but its bytes. -/
theorem Device.KeepsBlock.of_readWrite {name : String} {len : Nat} {cells cells' : Memory} :
    Device.KeepsBlock ⟨name, .block false len cells⟩ ⟨name, .block false len cells'⟩ := by
  rintro _ _ _ _ ⟨⟩
  exact ⟨cells', .refl _, fun h => by cases h⟩

/-- From `s` to `t` DIAG only grew, and each device of `s` is still there, no block of them made another (10_state.md
R25, R26). -/
structure Grows (s t : State) : Prop where
  diag : ∃ es, t.diag = s.diag ++ es
  device : ∀ (k : Nat) (d : Device), s.devices[k]? = some d → ∃ e, t.devices[k]? = some e ∧ d.KeepsBlock e

/-- An update of other fields. -/
theorem Grows.of_eq {s t : State} (hl : t.diag = s.diag) (hd : t.devices = s.devices) : Grows s t :=
  ⟨⟨[], by simp [hl]⟩, fun _ d h => ⟨d, hd ▸ h, .rfl⟩⟩

theorem Grows.trans {s t u : State} (h : Grows s t) (h' : Grows t u) : Grows s u := by
  obtain ⟨⟨es, hes⟩, hdev⟩ := h
  obtain ⟨⟨es', hes'⟩, hdev'⟩ := h'
  refine ⟨⟨es ++ es', by rw [hes', hes, List.append_assoc]⟩, fun k d hd => ?_⟩
  obtain ⟨e, he, hde⟩ := hdev k d hd
  obtain ⟨f, hf, hef⟩ := hdev' k e he
  exact ⟨f, hf, hde.trans hef⟩

theorem logDiag_grows (s : State) (e : DiagEvent) : Grows s (s.logDiag e) :=
  ⟨⟨[e], rfl⟩, fun _ d h => ⟨d, h, .rfl⟩⟩

theorem setDevice_grows {s : State} {i : Nat} {d e : Device} (hd : s.devices[i]? = some d) (h : d.KeepsBlock e) :
    Grows s (s.setDevice i e) := by
  refine ⟨⟨[], by simp⟩, fun k d' hd' => ?_⟩
  by_cases hk : i = k
  · subst hk
    obtain rfl : d = d' := by simpa [hd] using hd'
    exact ⟨e, by simp [(List.getElem?_eq_some_iff.1 hd).1], h⟩
  · exact ⟨d', by simpa [hk] using hd', .rfl⟩

/-! ### The bus -/

theorem memRead_grows (s : State) (a : Addr) : Grows s (memRead s a).1 := by
  rcases memRead_cases s a with ⟨-, h⟩ | ⟨_, _, _, _, _, _, -, h⟩ | ⟨_, _, _, -, h⟩ | ⟨_, _, _, _, _, hl, h⟩ <;> rw [h]
  · exact (logDiag_grows s _).trans (.of_eq rfl rfl)
  · exact .of_eq rfl rfl
  · exact .of_eq rfl rfl
  · exact (setDevice_grows (device_of_locate hl) .of_external).trans (.of_eq rfl rfl)

/-- The state in which effects ended. -/
def Effected.state : Effected → State
  | .done s => s
  | .raised _ s => s

theorem memWrite_grows (op : Option Byte) (s : State) (a : Addr) (v : Byte) : Grows s (memWrite op s a v).state := by
  rcases memWrite_cases op s a v with ⟨-, h⟩ | ⟨_, _, _, _, _, -, h⟩ | ⟨_, _, _, _, _, hl, h⟩ | ⟨_, _, _, -, h⟩ |
    ⟨_, _, _, _, _, hl, h⟩ <;> rw [h]
  · exact (logDiag_grows s _).trans (.of_eq rfl rfl)
  · exact .of_eq rfl rfl
  · exact (setDevice_grows (device_of_locate hl) .of_readWrite).trans (.of_eq rfl rfl)
  · exact .of_eq rfl rfl
  · exact (setDevice_grows (device_of_locate hl) .of_external).trans (.of_eq rfl rfl)

/-! ### A step -/

theorem fetchByte_grows (s : State) : Grows s (fetchByte s).1 := (memRead_grows s s.pc).trans (.of_eq rfl rfl)

theorem fetchBytes_grows (n : Nat) (s : State) : Grows s (fetchBytes n s).1 := by
  induction n generalizing s with
  | zero => exact .of_eq rfl rfl
  | succ n ih => exact (fetchByte_grows s).trans (ih _)

theorem exec_grows {i : Instr} {s t : State} (h : exec i s = .next t) : Grows s t := by
  rcases exec_cases i s with ⟨op, r, v, -, e⟩ | ⟨op, f, b, -, -, -, e⟩ | ⟨op, r, ea, e⟩ | ⟨op, r, ea, e⟩ <;> rw [e] at h
  · rw [loadImmediate_eq, Host.Outcome.next.injEq] at h
    exact h ▸ .of_eq (by simp) (by simp)
  · rw [flagImplied_eq, Host.Outcome.next.injEq] at h
    exact h ▸ .of_eq (by simp) (by simp)
  · rw [loadAbsolute_eq, Host.Outcome.next.injEq] at h
    exact h ▸ (memRead_grows s ea).trans (.of_eq (by simp) (by simp))
  · rcases storeAbsolute_cases op r ea s with ⟨u, hw, hs⟩ | ⟨n, -, hs⟩ <;>
      rw [hs, Host.Outcome.next.injEq] at h <;> subst h
    · have hwrite := memWrite_grows (some op) (memRead s ea).1 ea (s.reg r)
      rw [hw] at hwrite
      exact ((memRead_grows s ea).trans hwrite).trans (.of_eq rfl rfl)
    · exact (memRead_grows s ea).trans (.of_eq rfl rfl)

theorem step_grows {s t : State} (h : step s = .next t) : Grows s t := by
  have hlife : Grows s (s.setLife .running) := .of_eq rfl rfl
  rcases (step_cases h).2 with ⟨-, rfl⟩ | ⟨n, i, -, he, -⟩
  · exact (hlife.trans (fetchByte_grows _)).trans (.of_eq rfl rfl)
  · exact (hlife.trans (fetchBytes_grows n _)).trans (exec_grows he)

/-! ### The other commands -/

theorem zeroAll_grows (as : List Addr) (s : State) : Grows s (zeroAll s as).state := by
  induction as generalizing s with
  | nil => exact .of_eq rfl rfl
  | cons a as ih =>
    have hw := memWrite_grows none s a 0x00#8
    rw [zeroAll_cons]
    cases hm : memWrite none s a 0x00#8 with
    | done t => rw [hm] at hw; exact hw.trans (ih t)
    | raised f t => rw [hm] at hw; exact hw

theorem loadVector_grows (s : State) : Grows s (loadVector s) :=
  ((memRead_grows s _).trans (memRead_grows _ _)).trans (.of_eq rfl rfl)

/-- A command that zeroes addresses and then runs `g` where no write faulted. -/
theorem finishCommand_grows {s u : State} {as : List Addr} {g : State → State} (hu : Grows s u) (hg : ∀ t, Grows t (g t)) :
    Grows s (finishCommand s ((zeroAll u as).andThen g)).state := by
  have hz := hu.trans (zeroAll_grows as u)
  cases he : zeroAll u as with
  | done t => rw [he] at hz; exact hz.trans (hg t)
  | raised f t => rw [he] at hz; exact hz.trans (.of_eq rfl rfl)

/-- What an assembly command makes of a state: nothing where it is refused; in PoweredOff a recorded failure, one more
device, or one more mapping. -/
inductive AssemblyStep (s : State) : State → Prop
  | refused : AssemblyStep s s
  | failed (off : s.life = .poweredOff) : AssemblyStep s s.failAssembly
  | device (off : s.life = .poweredOff) (d : Device) : AssemblyStep s { s with devices := s.devices ++ [d] }
  | mapping (off : s.life = .poweredOff) (m : Mapping) : AssemblyStep s { s with mappings := s.mappings ++ [m] }

theorem makeDevice_assemblyStep (s : State) (d : Device) : AssemblyStep s (makeDevice s d).state := by
  rw [makeDevice_eq]
  split
  · next off => exact .device off d
  · exact .refused

theorem makeBlock_assemblyStep (s : State) (name : String) (ro : Bool) (len : Nat) (init : List Host.Cell) :
    AssemblyStep s (makeBlock s name ro len init).state := by
  unfold makeBlock
  split
  · next h => exact .failed h.1
  · exact makeDevice_assemblyStep s _

theorem addDevice_assemblyStep (s : State) (dev : Nat) (low high : Addr) :
    AssemblyStep s (addDevice s dev low high).state := by
  rw [addDevice_eq]
  split
  · next h =>
    split
    · split
      · exact .failed h.1
      · exact .mapping h.1 _
    · exact .failed h.1
  · exact .refused

/-- Every command but `power_on`, `reset` and `step` is an assembly command. -/
theorem runCommand_assemblyStep (c : HostCommand) (s : State) :
    (c = .powerOn ∨ c = .reset ∨ c = .step) ∨ AssemblyStep s (runCommand c s).state := by
  cases c with
  | makeBlock name ro len init => exact .inr (makeBlock_assemblyStep s name ro len init)
  | makeStub name => exact .inr (makeDevice_assemblyStep s _)
  | makeExternal name id st => exact .inr (makeDevice_assemblyStep s _)
  | addDevice dev low high => exact .inr (addDevice_assemblyStep s dev low high)
  | powerOn => exact .inl (.inl rfl)
  | reset => exact .inl (.inr (.inl rfl))
  | step => exact .inl (.inr (.inr rfl))

theorem AssemblyStep.grows {s t : State} (h : AssemblyStep s t) : Grows s t := by
  cases h with
  | refused => exact .of_eq rfl rfl
  | failed => exact .of_eq rfl rfl
  | device off d =>
    refine ⟨⟨[], by simp⟩, fun k e he => ⟨e, ?_, .rfl⟩⟩
    exact (List.getElem?_append_left (List.getElem?_eq_some_iff.1 he).1).trans he
  | mapping => exact .of_eq rfl rfl

theorem AssemblyStep.sp_eq {s t : State} (h : AssemblyStep s t) : t.sp = s.sp := by cases h <;> rfl

/-- With power an assembly command is refused. -/
theorem AssemblyStep.eq_of_powered {s t : State} (h : AssemblyStep s t) (hp : s.life ≠ .poweredOff) : t = s := by
  cases h with
  | refused => rfl
  | failed off => exact absurd off hp
  | device off _ => exact absurd off hp
  | mapping off _ => exact absurd off hp

theorem powerOn_grows (s : State) : Grows s (powerOn s).state := by
  unfold powerOn
  split
  · exact finishCommand_grows (.of_eq rfl rfl) fun t => (loadVector_grows t).trans (.of_eq rfl rfl)
  · exact .of_eq rfl rfl

theorem softReset_grows (s : State) : Grows s (softReset s).state := by
  unfold softReset
  split
  · exact finishCommand_grows (.of_eq rfl rfl) loadVector_grows
  · exact .of_eq rfl rfl

theorem stepCommand_grows (s : State) : Grows s (stepCommand s).state := by
  rcases stepCommand_cases s with ⟨-, t, ht, h⟩ | ⟨-, h⟩ <;> rw [h]
  · exact step_grows ht
  · exact .of_eq rfl rfl

theorem runCommand_grows (c : HostCommand) (s : State) : Grows s (runCommand c s).state := by
  rcases runCommand_assemblyStep c s with (rfl | rfl | rfl) | h
  · exact powerOn_grows s
  · exact softReset_grows s
  · exact stepCommand_grows s
  · exact h.grows

/-- Settles O28: every command leaves each device in its place, with what a block keeps. -/
theorem onlyReadWriteBytesChange : Obligations.OnlyReadWriteBytesChange := by
  unfold Obligations.OnlyReadWriteBytesChange
  intro c s k name ro len cells hk
  obtain ⟨e, he, hkeep⟩ := (runCommand_grows c s).device k _ hk
  obtain ⟨cells', rfl, hro⟩ := hkeep name ro len cells rfl
  exact ⟨cells', he, hro⟩

/-! ### A command's diagnostics -/

/-- A command's result holds the diagnostics that stand after those of `s`. -/
def CommandResult.EventsAfter (s : State) (r : CommandResult) : Prop :=
  r.events = r.state.diag.drop s.diag.length

theorem commandResult_eventsAfter (s t : State) (r : Reply) : (commandResult s t r).EventsAfter s := rfl

theorem finishCommand_eventsAfter (s : State) (e : Effected) : (finishCommand s e).EventsAfter s := by
  cases e with
  | done t => exact commandResult_eventsAfter s t _
  | raised f t => exact commandResult_eventsAfter s (t.halt f) _

theorem makeDevice_eventsAfter (s : State) (d : Device) : (makeDevice s d).EventsAfter s := by
  unfold makeDevice
  split <;> exact commandResult_eventsAfter s _ _

theorem makeBlock_eventsAfter (s : State) (name : String) (ro : Bool) (len : Nat) (init : List Host.Cell) :
    (makeBlock s name ro len init).EventsAfter s := by
  unfold makeBlock
  split
  · exact commandResult_eventsAfter s _ _
  · exact makeDevice_eventsAfter s _

theorem addDevice_eventsAfter (s : State) (dev : Nat) (low high : Addr) :
    (addDevice s dev low high).EventsAfter s := by
  unfold addDevice
  split
  · split
    · split <;> exact commandResult_eventsAfter s _ _
    · exact commandResult_eventsAfter s _ _
  · exact commandResult_eventsAfter s _ _

theorem powerOn_eventsAfter (s : State) : (powerOn s).EventsAfter s := by
  unfold powerOn
  split
  · exact finishCommand_eventsAfter s _
  · exact commandResult_eventsAfter s _ _

theorem softReset_eventsAfter (s : State) : (softReset s).EventsAfter s := by
  unfold softReset
  split
  · exact finishCommand_eventsAfter s _
  · exact commandResult_eventsAfter s _ _

theorem stepCommand_eventsAfter (s : State) : (stepCommand s).EventsAfter s := by
  unfold stepCommand
  split <;> exact commandResult_eventsAfter s _ _

theorem runCommand_eventsAfter (c : HostCommand) (s : State) : (runCommand c s).EventsAfter s := by
  cases c with
  | makeBlock name ro len init => exact makeBlock_eventsAfter s name ro len init
  | makeStub name => exact makeDevice_eventsAfter s _
  | makeExternal name id st => exact makeDevice_eventsAfter s _
  | addDevice dev low high => exact addDevice_eventsAfter s dev low high
  | powerOn => exact powerOn_eventsAfter s
  | reset => exact softReset_eventsAfter s
  | step => exact stepCommand_eventsAfter s

/-- Settles O47: every command appends to DIAG, and its result holds what stands after the old DIAG. -/
theorem diagIsAppendOnly : Obligations.DiagIsAppendOnly := by
  unfold Obligations.DiagIsAppendOnly
  intro c s
  obtain ⟨es, hes⟩ := (runCommand_grows c s).diag
  rw [runCommand_eventsAfter c s, hes, List.drop_left]

end Sys2Proof.Machine
end

section
/-! SUPPORT. What steps and commands leave of SP, the flags V, B4 and B5, and the layout of the bus (10_state.md R14, R18, R24; O43, O45, O46). -/

namespace Sys2Proof.Machine

/-! ### A step -/

/-- A halt is within the frame of an instruction. -/
theorem halt_execFrame (s : State) (f : Fault) : ExecFrame s (s.halt f) where
  sp := rfl
  pc := rfl
  mappings := rfl
  assemblyFailed := rfl
  life := .inr ⟨f, rfl⟩
  b4 := rfl
  b5 := rfl
  v := id
  len := rfl
  wf := (State.wf_congr rfl rfl).trans

/-- A step is a fetch, which leaves SP and P, and then an instruction, or the halt at an unassigned opcode, within the
frame of `ExecFrame`. -/
theorem step_execFrame {s t : State} (h : step s = .next t) : ∃ u, u.sp = s.sp ∧ u.p = s.p ∧ ExecFrame u t := by
  rcases (step_cases h).2 with ⟨-, rfl⟩ | ⟨n, i, -, he, -⟩
  · exact ⟨(fetchByte (s.setLife .running)).1, by simp, by simp, halt_execFrame _ _⟩
  · have hfetch := fetchBytes_frame (s.setLife .running) n
    exact ⟨(fetchBytes n (s.setLife .running)).1, hfetch.sp, hfetch.p, execFrame_of_next he⟩

/-- Settles O46: the fetch leaves P, and no instruction sets V or changes B4 or B5. -/
theorem stepNeverSetsOverflowNorReservedBits : Obligations.StepNeverSetsOverflowNorReservedBits := by
  unfold Obligations.StepNeverSetsOverflowNorReservedBits
  intro s t h
  obtain ⟨u, -, hp, hframe⟩ := step_execFrame h
  exact ⟨hframe.b4.trans (flag_congr hp _), hframe.b5.trans (flag_congr hp _),
    fun hv => hframe.v ((flag_congr hp _).trans hv)⟩

theorem step_sp {s t : State} (h : step s = .next t) : t.sp = s.sp := by
  obtain ⟨u, hsp, -, hframe⟩ := step_execFrame h
  exact hframe.sp.trans hsp

/-- A step from another SP answers the same next state with that SP. -/
theorem step_with_sp {s t : State} (h : step s = .next t) (v : Byte) :
    step { s with sp := v } = .next { t with sp := v } := by
  obtain ⟨fs, m, hp, hcyc, hrun⟩ := (step_ignoresPSpCyc (step_cases h).1).of_next h
  have hsp := hrun s.p v s.cyc
  rw [← hp, ← hcyc] at hsp
  exact hsp

/-! ### The commands -/

/-- A `reset` not accepted changes nothing (70_reset_and_hazards.md R182). -/
theorem softReset_refused {s : State} (h : ¬s.life.accepts = true) : softReset s = ⟨s, .refused, []⟩ :=
  (if_neg h).trans (refuse_eq s)

theorem powerOn_sp {s : State} (hl : s.life = .poweredOff) (ha : s.assemblyFailed = false) :
    (powerOn s).state.sp = Config.spPowerOn := by
  rcases powerOn_cases s hl ha with ⟨t, h, hframe, -⟩ | ⟨n, a, v, t, h, hframe, -⟩ <;> rw [h] <;> exact hframe.sp

theorem softReset_sp {s : State} (h : s.life.accepts = true) : (softReset s).state.sp = s.sp - 3#8 := by
  rcases softReset_cases s h with ⟨t, h, hframe, -⟩ | ⟨n, a, v, t, h, hframe, -⟩ <;> rw [h] <;> exact hframe.sp

theorem stepCommand_sp (s : State) : (stepCommand s).state.sp = s.sp := by
  rcases stepCommand_cases s with ⟨-, t, ht, h⟩ | ⟨-, h⟩ <;> rw [h]
  exact step_sp ht

/-- Settles O43: `power_on` and `reset` write SP before anything can fault; assembly and steps leave it. -/
theorem onlyPowerOnAndResetTouchSp : Obligations.OnlyPowerOnAndResetTouchSp := by
  unfold Obligations.OnlyPowerOnAndResetTouchSp
  refine fun c s => ⟨fun hp hr => ?_, powerOn_sp, softReset_sp, fun t v ht => step_with_sp ht v⟩
  rcases runCommand_assemblyStep c s with (rfl | rfl | rfl) | h
  · exact absurd rfl hp
  · exact absurd rfl hr
  · exact stepCommand_sp s
  · exact h.sp_eq

/-- From `s` to `t` no mapping and no device was made or removed (10_state.md R24). -/
def SameBusLayout (s t : State) : Prop := t.mappings = s.mappings ∧ t.devices.length = s.devices.length

theorem powerOn_layout (s : State) : SameBusLayout s (powerOn s).state := by
  by_cases hs : s.life = .poweredOff ∧ s.assemblyFailed = false
  · rcases powerOn_cases s hs.1 hs.2 with ⟨t, h, hframe, -⟩ | ⟨n, a, v, t, h, hframe, -⟩ <;> rw [h] <;>
      exact ⟨hframe.mappings, hframe.len⟩
  · rw [powerOn_refused hs]
    exact ⟨rfl, rfl⟩

theorem softReset_layout (s : State) : SameBusLayout s (softReset s).state := by
  by_cases hs : s.life.accepts = true
  · rcases softReset_cases s hs with ⟨t, h, hframe, -⟩ | ⟨n, a, v, t, h, hframe, -⟩ <;> rw [h] <;>
      exact ⟨hframe.mappings, hframe.len⟩
  · rw [softReset_refused hs]
    exact ⟨rfl, rfl⟩

theorem stepCommand_layout (s : State) : SameBusLayout s (stepCommand s).state := by
  rcases stepCommand_cases s with ⟨-, t, ht, h⟩ | ⟨-, h⟩ <;> rw [h]
  · exact step_mappings ht
  · exact ⟨rfl, rfl⟩

theorem runCommand_layout {c : HostCommand} (hc : c = .powerOn ∨ c = .reset ∨ c = .step) (s : State) :
    SameBusLayout s (runCommand c s).state := by
  rcases hc with rfl | rfl | rfl
  · exact powerOn_layout s
  · exact softReset_layout s
  · exact stepCommand_layout s

/-- Settles O45: `power_on`, `reset` and `step` keep the layout of the bus, and with power every other command is refused. -/
theorem mappingsAreFixedAfterAssembly : Obligations.MappingsAreFixedAfterAssembly := by
  unfold Obligations.MappingsAreFixedAfterAssembly
  rintro c s (hp | hc)
  · rcases runCommand_assemblyStep c s with hc | h
    · exact runCommand_layout hc s
    · rw [h.eq_of_powered hp]
      exact ⟨rfl, rfl⟩
  · exact runCommand_layout hc s

end Sys2Proof.Machine
end

section
/-! SUPPORT. A sound state stays sound (20_memory.md R43, R52, R66): under a step, and under every host command (O40, O41, O42). -/

namespace Sys2Proof.Machine

/-- A step keeps a sound state: the fetch does, and so do the instruction and the halt. -/
theorem step_wf {s t : State} (hs : s.wf = true) (h : step s = .next t) : t.wf = true := by
  have hrun : (s.setLife .running).wf = true := hs
  rcases (step_cases h).2 with ⟨-, rfl⟩ | ⟨n, i, -, he, -⟩
  · exact (halt_execFrame _ _).wf (fetchByte_wf hrun)
  · exact (execFrame_of_next he).wf ((fetchBytes_frame _ n).wf hrun)

/-- Settles O40: fetch and instruction each keep a sound state. -/
theorem stepKeepsSoundState : Obligations.StepKeepsSoundState := by
  unfold Obligations.StepKeepsSoundState
  exact fun _ _ => step_wf

theorem makeDevice_wf {s : State} (hs : s.wf = true) {d : Device} (hd : d.wf = true) :
    (makeDevice s d).state.wf = true := by
  rw [makeDevice_eq]
  split
  · exact wf_makeDevice hs hd
  · exact hs

/-- A loader's block of legal length is sound (20_memory.md R52). -/
theorem Device.wf_loadCells (name : String) (ro : Bool) {len : Nat} (h : blockLengthOk len = true) (init : List Host.Cell) :
    Device.wf ⟨name, .block ro len (loadCells len init [])⟩ = true :=
  Device.wf_block.2 ⟨h, loadCells_wf len init [] (blockLengthOk_pos h) rfl rfl⟩

theorem makeBlock_wf {s : State} (hs : s.wf = true) (name : String) (ro : Bool) (len : Nat) (init : List Host.Cell) :
    (makeBlock s name ro len init).state.wf = true := by
  rw [makeBlock_eq]
  split
  · split
    · next hlen => exact wf_makeDevice hs (Device.wf_loadCells name ro hlen init)
    · exact hs
  · exact hs

/-- One more sound mapping that meets no other keeps a sound state (20_memory.md R43). -/
theorem wf_addMapping {s : State} (hs : s.wf = true) {m : Mapping} (hm : m.wf s.devices.length = true)
    (hmeet : s.mappings.find? (·.intersects m.low m.high) = none) :
    State.wf { s with mappings := s.mappings ++ [m] } = true := by
  obtain ⟨hdevices, hmappings, hdisjoint⟩ := State.wf_iff.1 hs
  exact State.wf_iff.2 ⟨hdevices, by simp [hmappings, hm], disjoint_append hdisjoint hmeet⟩

theorem addDevice_wf {s : State} (hs : s.wf = true) (dev : Nat) (low high : Addr) :
    (addDevice s dev low high).state.wf = true := by
  rw [addDevice_eq]
  split
  · next hoff =>
    split
    · next hrange =>
      split
      · exact hs
      · next hmeet => exact wf_addMapping (m := ⟨dev, low, high⟩) hs (by simp [Mapping.wf, rangeOk, hrange, hoff.2]) hmeet
    · exact hs
  · exact hs

theorem powerOn_wf {s : State} (hs : s.wf = true) : (powerOn s).state.wf = true := by
  by_cases ha : s.life = .poweredOff ∧ s.assemblyFailed = false
  · rcases powerOn_cases s ha.1 ha.2 with ⟨t, h, hframe, -⟩ | ⟨n, a, v, t, h, hframe, -⟩ <;> rw [h] <;> exact hframe.wf hs
  · rw [powerOn_refused ha]
    exact hs

theorem softReset_wf {s : State} (hs : s.wf = true) : (softReset s).state.wf = true := by
  by_cases ha : s.life.accepts = true
  · rcases softReset_cases s ha with ⟨t, h, hframe, -⟩ | ⟨n, a, v, t, h, hframe, -⟩ <;> rw [h] <;> exact hframe.wf hs
  · rw [softReset_refused ha]
    exact hs

theorem stepCommand_wf {s : State} (hs : s.wf = true) : (stepCommand s).state.wf = true := by
  rcases stepCommand_cases s with ⟨-, t, ht, h⟩ | ⟨-, h⟩ <;> rw [h]
  · exact step_wf hs ht
  · exact hs

/-- Settles O41: each command makes a sound device, a mapping that meets no other, or bus accesses, which keep a sound state. -/
theorem everyCommandKeepsSoundState : Obligations.EveryCommandKeepsSoundState := by
  unfold Obligations.EveryCommandKeepsSoundState
  intro c s hs
  cases c with
  | makeBlock name ro len init => exact makeBlock_wf hs name ro len init
  | makeStub name => exact makeDevice_wf hs rfl
  | makeExternal name id st => exact makeDevice_wf hs rfl
  | addDevice dev low high => exact addDevice_wf hs dev low high
  | powerOn => exact powerOn_wf hs
  | reset => exact softReset_wf hs
  | step => exact stepCommand_wf hs

/-- Settles O42: the reference map has disjoint ranges, and the unassembled machine has none. -/
theorem resetStateIsSound : Obligations.ResetStateIsSound := by
  unfold Obligations.ResetStateIsSound
  exact ⟨by decide, rfl, rfl⟩

end Sys2Proof.Machine
end

section
/-! SUPPORT. The bytes of an instruction are its encoding (30_encoding.md R80, R83), and the bus transactions of a step in order (20_memory.md R60; O12). -/

namespace Sys2Proof

/-- The instructions of a format at opcode `op` encode as that opcode and the format's operand bytes (30_encoding.md R80). -/
def OpShape.Encodes (op : Byte) : OpShape → Prop
  | .implied i => encode i = [op]
  | .immediate mk => ∀ v, encode (mk v) = [op, v]
  | .absolute mk => ∀ ea, encode (mk ea) = encodeAbs op ea

/-- Every row of the decoder's table is the encoder's. -/
theorem encodes_of_opShape {op : Byte} {sh : OpShape} (h : opShape op = some sh) : sh.Encodes op := by
  have rows : ∀ p ∈ opShapes, p.2.Encodes p.1 := by
    simp only [opShapes, List.forall_mem_cons, OpShape.Encodes, encode, implies_true, and_self, List.not_mem_nil,
      false_implies]
  rcases opShape_cases op with hn | ⟨p, hp, rfl, hs⟩
  · rw [hn] at h; cases h
  · rw [hs, Option.some.injEq] at h
    exact h ▸ rows p hp

/-- The encoding of an address operand splits what the decoder joins (20_memory.md R54). -/
theorem encodeAbs_joinBytes (op hi lo : Byte) : encodeAbs op (joinBytes hi lo) = [op, lo, hi] := by
  simp [encodeAbs]

/-- Bytes that decode are the instruction's encoding and the bytes left over (30_encoding.md R80, R81). -/
theorem eq_encode_append_of_decode {bs rest : List Byte} {i : Instr} (h : decode bs = .instr i rest) :
    bs = encode i ++ rest := by
  cases bs with
  | nil => cases h
  | cons op bs =>
    cases hs : opShape op with
    | none => simp [decode, hs] at h
    | some sh =>
      have henc := encodes_of_opShape hs
      cases sh with
      | implied j =>
        obtain ⟨rfl, rfl⟩ : j = i ∧ bs = rest := by simpa [decode, hs] using h
        rw [henc]; rfl
      | immediate mk =>
        rcases bs with _ | ⟨v, bs⟩
        · simp [decode, hs] at h
        · obtain ⟨rfl, rfl⟩ : mk v = i ∧ bs = rest := by simpa [decode, hs] using h
          rw [henc v]; rfl
      | absolute mk =>
        rcases bs with _ | ⟨lo, _ | ⟨hi, bs⟩⟩
        · simp [decode, hs] at h
        · simp [decode, hs] at h
        · obtain ⟨rfl, rfl⟩ : mk (joinBytes hi lo) = i ∧ bs = rest := by simpa [decode, hs] using h
          rw [henc, encodeAbs_joinBytes]; rfl

end Sys2Proof

namespace Sys2Proof.Machine

theorem loadImmediate_trace {op : Byte} {r : DataReg} {v : Byte} {s t : State} (h : loadImmediate op r v s = .next t) :
    t.trace = s.trace := by
  rw [loadImmediate_eq, Host.Outcome.next.injEq] at h
  simp [← h]

theorem flagImplied_trace {op : Byte} {f : Flag} {b : Bool} {s t : State} (h : flagImplied op f b s = .next t) :
    t.trace = s.trace := by
  rw [flagImplied_eq, Host.Outcome.next.injEq] at h
  simp [← h]

theorem loadAbsolute_trace {op : Byte} {r : DataReg} {ea : Addr} {s t : State} (h : loadAbsolute op r ea s = .next t) :
    t.trace = .read ea (memRead s ea).2 :: s.trace := by
  rw [loadAbsolute_eq, Host.Outcome.next.injEq] at h
  simp [← h]

/-- A store that does not halt makes its pre-read and then its write (43_stores.md R130). -/
theorem storeAbsolute_trace {op : Byte} {r : DataReg} {ea : Addr} {s t : State} (h : storeAbsolute op r ea s = .next t)
    (ha : t.alive = true) : t.trace = .write ea (s.reg r) :: .read ea (memRead s ea).2 :: s.trace := by
  rcases storeAbsolute_cases op r ea s with ⟨u, hw, e⟩ | ⟨n, -, e⟩ <;> rw [e, Host.Outcome.next.injEq] at h <;> subst h
  · rw [addCycles_trace, (memWrite_frame hw).trace, memRead_trace]
  · cases ha

/-- The transactions of an instruction whose bytes have been read (20_memory.md R60). -/
theorem exec_trace {i : Instr} {s t : State} (h : exec i s = .next t) (ha : t.alive = true) :
    t.trace = (dataEvents s i).reverse ++ s.trace := by
  cases i with
  | clc | sec | cli | sei | clv | cld | sed => exact flagImplied_trace h
  | ldaImm v | ldxImm v | ldyImm v => exact loadImmediate_trace h
  | ldaAbs ea | ldxAbs ea | ldyAbs ea => exact loadAbsolute_trace h
  | sta ea | stx ea | sty ea => exact storeAbsolute_trace h ha

/-- Settles O12: the bytes fetched are the encoding of the instruction that runs, which then makes its own transactions. -/
theorem busTransactionsOfAStep : Obligations.BusTransactionsOfAStep := by
  unfold Obligations.BusTransactionsOfAStep
  intro s n i ha hd
  obtain ⟨t, ht, -⟩ := exec_frame i (fetchBytes n (s.setLife .running)).1
  refine ⟨t, ?_, fun halive => ?_⟩
  · rw [step_of_accepts ha, fetchInstr_of_decode hd]
    exact ht
  · have hbytes : (fetchBytes n (s.setLife .running)).2 = encode i := by simpa using eq_encode_append_of_decode hd
    rw [exec_trace ht halive, (fetchBytes_frame _ n).trace, hbytes, List.append_assoc]
    rfl

end Sys2Proof.Machine
end

section
/-! SUPPORT. Which mapping owns an address (20_memory.md R42, R44), and what a bus read and a bus write do through it (R45 to R53; O22 to O26, O48). -/

namespace Sys2Proof.Machine

/-! ### Lookup -/

theorem owns_iff {m : Mapping} {a : Addr} : m.owns a = true ↔ m.low ≤ a ∧ a ≤ m.high := by
  simp [Mapping.owns]

/-- Lookup answers the first owner in registration order (20_memory.md R44). -/
theorem lookup_of_first {s : State} {a : Addr} {pre post : List Mapping} {m : Mapping} (hs : s.mappings = pre ++ m :: post)
    (hpre : ∀ k ∈ pre, ¬(k.low ≤ a ∧ a ≤ k.high)) (hm : m.low ≤ a ∧ a ≤ m.high) : s.lookup a = some m :=
  List.find?_eq_some_iff_append.2 ⟨owns_iff.2 hm, pre, post, hs, fun k hk => by simpa using mt owns_iff.1 (hpre k hk)⟩

theorem lookup_of_unowned {s : State} {a : Addr} (h : ∀ m ∈ s.mappings, ¬(m.low ≤ a ∧ a ≤ m.high)) : s.lookup a = none :=
  List.find?_eq_none.2 fun m hm ho => h m hm (owns_iff.1 ho)

/-- On a sound bus lookup answers whichever mapping owns the address. -/
theorem lookup_of_owner {s : State} {a : Addr} {m : Mapping} (hs : s.wf = true) (hm : m ∈ s.mappings)
    (ho : m.low ≤ a ∧ a ≤ m.high) : s.lookup a = some m := by
  obtain ⟨-, -, hdisjoint⟩ := State.wf_iff.1 hs
  exact disjoint_mem hdisjoint hm (owns_iff.2 ho)

/-- Settles O22: lookup finds the first owner, and disjoint ranges leave no second one. -/
theorem lookupAnswersTheOnlyOwner : Obligations.LookupAnswersTheOnlyOwner := by
  unfold Obligations.LookupAnswersTheOnlyOwner
  exact fun s a => ⟨fun pre m post hs hpre hlow hhigh => lookup_of_first hs hpre ⟨hlow, hhigh⟩, lookup_of_unowned,
    fun hs m hm hlow hhigh => lookup_of_owner hs hm ⟨hlow, hhigh⟩⟩

/-! ### Unmapped addresses -/

theorem locate_of_unowned {s : State} {a : Addr} (h : ∀ m ∈ s.mappings, ¬(m.low ≤ a ∧ a ≤ m.high)) : s.locate a = none :=
  locate_of_lookup_none (lookup_of_unowned h)

theorem memWrite_of_unmapped {s : State} {a : Addr} (op : Option Byte) (v : Byte) (h : s.locate a = none) :
    memWrite op s a v = .done ((s.logDiag (.unmappedWrite a v)).note (.write a v)) := by
  simp [memWrite, h]

/-- Settles O25: an address no mapping owns is located nowhere. -/
theorem unmappedReadIsZeroAndLogged : Obligations.UnmappedReadIsZeroAndLogged := by
  unfold Obligations.UnmappedReadIsZeroAndLogged
  exact fun s a h => memRead_of_unmapped (locate_of_unowned h)

/-- Settles O26: an address no mapping owns is located nowhere. -/
theorem unmappedWriteIsDroppedAndLogged : Obligations.UnmappedWriteIsDroppedAndLogged := by
  unfold Obligations.UnmappedWriteIsDroppedAndLogged
  exact fun op s a v h => memWrite_of_unmapped op v (locate_of_unowned h)

/-! ### Delegation to the owner -/

/-- The device-local address, as the number R45 says it is (20_memory.md R45). -/
theorem sub_low_eq_ofNat {a low : Addr} (h : low ≤ a) : a - low = BitVec.ofNat 16 (a.toNat - low.toNat) := by
  rw [← BitVec.toNat_sub_of_le h, BitVec.ofNat_toNat, BitVec.setWidth_eq]

/-- On a sound bus the device of the mapping that owns an address is located there. -/
theorem locate_of_owner {s : State} {a : Addr} {m : Mapping} {d : Device} (hs : s.wf = true) (hm : m ∈ s.mappings)
    (ho : m.low ≤ a ∧ a ≤ m.high) (hd : s.devices[m.dev]? = some d) : s.locate a = some (m.dev, d, a - m.low) :=
  locate_eq_some.2 ⟨m, lookup_of_owner hs hm ho, rfl, hd, rfl⟩

/-- A bus read of a device that owns the address (20_memory.md R45). -/
theorem memRead_of_locate {s : State} {a : Addr} {i : Nat} {d : Device} {off : Addr} (h : s.locate a = some (i, d, off)) :
    memRead s a = ((s.readDevice i d off).1.note (.read a (s.readDevice i d off).2), (s.readDevice i d off).2) := by
  simp [memRead, h]

/-- Settles O23: the device located is the owner's, at the address minus low. -/
theorem busReadDelegatesWithTranslation : Obligations.BusReadDelegatesWithTranslation := by
  unfold Obligations.BusReadDelegatesWithTranslation
  refine fun s a hs => ⟨memRead_life s a, fun m d hm hlow hhigh hd => ?_, fun h => ?_⟩
  · rw [← sub_low_eq_ofNat hlow]
    exact memRead_of_locate (locate_of_owner hs hm ⟨hlow, hhigh⟩ hd)
  · rw [memRead_of_unmapped (locate_of_unowned h)]
    exact ⟨rfl, rfl⟩

/-- Settles O48: each kind of device answers a write in its own way, and a read-only block alone raises. -/
theorem busWriteDelegatesWithTranslation : Obligations.BusWriteDelegatesWithTranslation := by
  unfold Obligations.BusWriteDelegatesWithTranslation
  refine fun op s a v hs => ⟨fun m d hm hlow hhigh hd => ?_, fun h => memWrite_of_unmapped op v (locate_of_unowned h),
    fun f t h => ?_⟩
  · have hl := locate_of_owner hs hm ⟨hlow, hhigh⟩ hd
    rw [← sub_low_eq_ofNat hlow, ← BitVec.toNat_sub_of_le hlow]
    obtain ⟨name, kind⟩ := d
    rcases kind with ⟨_ | _, len, cells⟩ | _ | ⟨id, st⟩ <;> simp only [memWrite, hl]
  · obtain ⟨i, n, len, cells, off, hl, rfl, -⟩ := memWrite_raised h
    exact ⟨by simp [State.readOnlyAt, hl], n, rfl⟩

/-! ### Memory blocks -/

/-- A bus read in a memory block, with the offset as a number (20_memory.md R49). -/
theorem memRead_of_block {s : State} {a : Addr} {m : Mapping} {name : String} {ro : Bool} {len : Nat} {cells : Memory}
    (hl : s.lookup a = some m) (hd : s.devices[m.dev]? = some ⟨name, .block ro len cells⟩) :
    memRead s a = (s.note (.read a (Memory.read cells ((a.toNat - m.low.toNat) % len))),
      Memory.read cells ((a.toNat - m.low.toNat) % len)) := by
  rw [memRead_of_locate (locate_eq_some.2 ⟨m, hl, rfl, hd, rfl⟩), ← off_toNat hl]
  rfl

/-- The low end of the mapping that lookup answers is not above the address. -/
theorem low_le_of_lookup {s : State} {a : Addr} {m : Mapping} (h : s.lookup a = some m) : m.low ≤ a := by
  have ho := List.find?_some h
  exact (owns_iff.1 ho).1

/-- Settles O24: addresses `N` apart in one mapping have offsets `N` apart, which are alike modulo `N`. -/
theorem blockReadIsModuloItsLength : Obligations.BlockReadIsModuloItsLength := by
  unfold Obligations.BlockReadIsModuloItsLength
  refine fun s a m name ro len cells hl hd => ⟨memRead_of_block hl hd, fun b hb hlb => ?_⟩
  have hle : m.low.toNat ≤ a.toNat := low_le_of_lookup hl
  have hoff : b.toNat - m.low.toNat = (a.toNat - m.low.toNat) + len := by omega
  rw [memRead_of_block hl hd, memRead_of_block hlb hd, hoff, Nat.add_mod_right]

end Sys2Proof.Machine
end

section
/-! SUPPORT. What is read after a completed write or store (20_memory.md R50, R62; O21, O27), and loads and stores at a device that is neither block nor stub (R41; O49). -/

namespace Sys2Proof.Machine

/-! ### Reading back -/

/-- In a sound state every address that reaches the byte written holds the value. -/
theorem memWrite_peek_self {op : Option Byte} {s t : State} {a b : Addr} {v : Byte} {c : Nat × Nat} (hs : s.wf = true)
    (h : memWrite op s a v = .done t) (ha : s.cellOf a = some c) (hb : s.cellOf b = some c) : t.peek b = some v := by
  rw [State.peek, (memWrite_frame h).cellOf, hb, Option.bind_some, memWrite_byteAt_self hs h ha]

/-- An address that reaches another byte holds what it held. -/
theorem memWrite_peek_of_ne {op : Option Byte} {s t : State} {a b : Addr} {v : Byte} {c d : Nat × Nat}
    (h : memWrite op s a v = .done t) (ha : s.cellOf a = some c) (hb : s.cellOf b = some d) (hne : d ≠ c) :
    t.peek b = s.peek b := by
  rw [State.peek, State.peek, (memWrite_frame h).cellOf, hb, Option.bind_some, Option.bind_some,
    memWrite_byteAt_of_ne h ha hne]

/-- An address that reaches a byte of a memory block holds one. -/
theorem peek_of_cellOf {s : State} {a : Addr} {c : Nat × Nat} (h : s.cellOf a = some c) : ∃ v, s.peek a = some v := by
  obtain ⟨n, ro, len, cells, off, hl, -⟩ := block_of_cellOf h
  exact ⟨_, peek_of_block hl⟩

/-- Settles O27: a bus read answers the byte its address reaches, which the write set or left. -/
theorem busWriteReadsBack : Obligations.BusWriteReadsBack := by
  unfold Obligations.BusWriteReadsBack
  intro op s a v c hs hc hro
  obtain ⟨t, ht⟩ := memWrite_done_of_not_readOnly op v hro
  refine ⟨t, ht, fun b hb => ?_, fun b d hb hne => ?_⟩
  · rw [memRead_of_peek (memWrite_peek_self hs ht hc hb)]
  · obtain ⟨w, hw⟩ := peek_of_cellOf hb
    rw [memRead_of_peek ((memWrite_peek_of_ne ht hc hb hne).trans hw), memRead_of_peek hw]

/-! ### Loads and stores by their register -/

/-- The absolute load of each register. -/
theorem exec_absolute_load {s : State} {ea : Addr} {r : DataReg} {i : Instr}
    (h : (r, i) ∈ [(DataReg.a, Instr.ldaAbs ea), (.x, .ldxAbs ea), (.y, .ldyAbs ea)]) :
    ∃ op, exec i s = loadAbsolute op r ea s := by
  simp only [List.mem_cons, Prod.mk.injEq, List.not_mem_nil, or_false] at h
  rcases h with ⟨rfl, rfl⟩ | ⟨rfl, rfl⟩ | ⟨rfl, rfl⟩
  · exact ⟨opLDAabs, rfl⟩
  · exact ⟨opLDXabs, rfl⟩
  · exact ⟨opLDYabs, rfl⟩

/-- The store of each register. -/
theorem exec_store {s : State} {ea : Addr} {v : Byte} {i : Instr}
    (h : (v, i) ∈ [(s.a, Instr.sta ea), (s.x, .stx ea), (s.y, .sty ea)]) :
    ∃ op r, s.reg r = v ∧ exec i s = storeAbsolute op r ea s := by
  simp only [List.mem_cons, Prod.mk.injEq, List.not_mem_nil, or_false] at h
  rcases h with ⟨rfl, rfl⟩ | ⟨rfl, rfl⟩ | ⟨rfl, rfl⟩
  · exact ⟨opSTA, .a, rfl, rfl⟩
  · exact ⟨opSTX, .x, rfl, rfl⟩
  · exact ⟨opSTY, .y, rfl, rfl⟩

/-- A store where no read-only block owns the address completes its write. -/
theorem storeAbsolute_of_not_readOnly {s : State} {ea : Addr} (op : Byte) (r : DataReg) (h : s.readOnlyAt ea = false) :
    ∃ t, memWrite (some op) (memRead s ea).1 ea (s.reg r) = .done t ∧
      storeAbsolute op r ea s = .next (t.addCycles cyclesAbsolute) := by
  rcases storeAbsolute_cases op r ea s with hdone | ⟨n, ⟨i, len, cells, off, hl⟩, -⟩
  · exact hdone
  · have hro : (memRead s ea).1.readOnlyAt ea = true := by simp [State.readOnlyAt, hl]
    rw [memRead_readOnlyAt, h] at hro
    cases hro

/-- Settles O21: a fetch is a bus read at PC, and the store's write set the byte it reaches. -/
theorem storeSeenByNextFetch : Obligations.StoreSeenByNextFetch := by
  unfold Obligations.StoreSeenByNextFetch
  intro s ea b c v i hi hs hea hro hb
  obtain ⟨op, r, rfl, hexec⟩ := exec_store hi
  obtain ⟨t, hw, hstore⟩ := storeAbsolute_of_not_readOnly op r hro
  have hpeek : t.peek b = some (s.reg r) :=
    memWrite_peek_self (memRead_wf hs ea) hw ((memRead_cellOf s ea ea).trans hea) ((memRead_cellOf s ea b).trans hb)
  refine ⟨_, hexec.trans hstore, ?_⟩
  rw [fetchByte_of_peek (v := s.reg r) (by simpa using hpeek)]

/-! ### What a load and a store leave -/

/-- The register and flag part of a load, in any state (41_loads.md R110). -/
theorem loadResult_setReg (r : DataReg) (v : Byte) (n : Nat) (s : State) :
    LoadResult r v s (((s.setReg r v).setLoadFlags v).addCycles n) := by
  have hz : (((s.setReg r v).setLoadFlags v).addCycles n).flag .z = true ↔ v = 0x00#8 := by simp
  have hn : (((s.setReg r v).setLoadFlags v).addCycles n).flag .n = v.getLsbD 7 := by simp
  refine ⟨by simp, fun q hq => ?_, hz, hn, fun ⟨h0, h7⟩ => ?_, fun f hf => ?_, by simp, by simp, by simp⟩
  · simp [setReg_reg_of_ne s v hq]
  · rw [hn, hz.1 h0] at h7
    cases h7
  · simp only [List.mem_cons, List.not_mem_nil, or_false, not_or] at hf
    rw [addCycles_flag, setLoadFlags_flag_of_ne _ _ hf.1 hf.2, setReg_flag]

/-- The same after a bus read, which leaves the registers, P and the control fields. -/
theorem LoadResult.of_memRead {r : DataReg} {v : Byte} {ea : Addr} {s t : State} (h : LoadResult r v (memRead s ea).1 t) :
    LoadResult r v s t := by
  simpa only [LoadResult, SameRegsBut, SameFlagsBut, memRead_reg, memRead_flag, memRead_sp, memRead_pc, memRead_life] using h

/-- An absolute load takes its byte from its bus read, and the devices and DIAG are as the read leaves them. -/
theorem loadAbsolute_result (op : Byte) (r : DataReg) (ea : Addr) (s : State) :
    ∃ t, loadAbsolute op r ea s = .next t ∧ LoadResult r (memRead s ea).2 s t ∧
      t.devices = (memRead s ea).1.devices ∧ t.diag = (memRead s ea).1.diag :=
  ⟨_, loadAbsolute_eq op r ea s, (loadResult_setReg r _ cyclesAbsolute (memRead s ea).1).of_memRead, by simp, by simp⟩

/-- A store whose write completed (43_stores.md R130). -/
theorem storeResult_of_write {op : Option Byte} {s t : State} {ea : Addr} {v : Byte}
    (h : memWrite op (memRead s ea).1 ea v = .done t) : StoreResult ea v s (t.addCycles cyclesAbsolute) := by
  have hw := memWrite_frame h
  refine ⟨fun q => ?_, by simp [hw.p], ⟨by simp [hw.sp], by simp [hw.life], by simp [hw.assemblyFailed],
    by simp [hw.mappings]⟩, by simp [hw.pc], by simp [hw.cyc], by simp [hw.trace]⟩
  cases q with
  | a => exact hw.a.trans (memRead_a s ea)
  | x => exact hw.x.trans (memRead_x s ea)
  | y => exact hw.y.trans (memRead_y s ea)

theorem SameMemory.of_bytes {s t : State} (hc : ∀ a, t.cellOf a = s.cellOf a) (hb : ∀ c, t.byteAt c = s.byteAt c) :
    SameMemory s t :=
  ⟨hc, peek_congr hc hb, hb⟩

/-- A store at an address that reaches no memory byte leaves the memory. -/
theorem store_sameMemory {op : Option Byte} {s t : State} {ea : Addr} {v : Byte} (n : Nat)
    (h : memWrite op (memRead s ea).1 ea v = .done t) (hc : s.cellOf ea = none) : SameMemory s (t.addCycles n) :=
  .of_bytes (fun a => ((memWrite_frame h).cellOf a).trans (memRead_cellOf s ea a)) fun c =>
    (memWrite_byteAt_of_no_cell h ((memRead_cellOf s ea ea).trans hc) c).trans (memRead_byteAt s ea c)

/-! ### A device that is neither block nor stub -/

/-- Where a device is replaced, its addresses locate the new one. -/
theorem setDevice_locate {s : State} {a : Addr} {i : Nat} {d : Device} {off : Addr} (h : s.locate a = some (i, d, off))
    (e : Device) : (s.setDevice i e).locate a = some (i, e, off) := by
  have hlt : i < s.devices.length := (List.getElem?_eq_some_iff.1 (device_of_locate h)).1
  obtain ⟨m, hm, hdev, -, hoff⟩ := locate_eq_some.1 h
  exact locate_eq_some.2 ⟨m, hm, hdev, by simp [hlt], hoff⟩

section

variable {s : State} {ea off : Addr} {k id st : Nat} {name : String}
  (h : s.locate ea = some (k, ⟨name, .external id st⟩, off))

include h

theorem memRead_of_external : memRead s ea =
    ((s.setDevice k ⟨name, .external id (Config.extRead id st off).1⟩).note (.read ea (Config.extRead id st off).2),
      (Config.extRead id st off).2) :=
  memRead_of_locate h

theorem memWrite_of_external (op : Option Byte) (v : Byte) : memWrite op s ea v =
    .done ((s.setDevice k ⟨name, .external id (Config.extWrite id st off v)⟩).note (.write ea v)) := by
  simp [memWrite, h]

theorem loadAbsolute_external (op : Byte) (r : DataReg) :
    ∃ t, loadAbsolute op r ea s = .next t ∧ LoadResult r (Config.extRead id st off).2 s t ∧
      t.devices = s.devices.set k ⟨name, .external id (Config.extRead id st off).1⟩ ∧ t.diag = s.diag := by
  obtain ⟨t, ht, hload, hdevices, hdiag⟩ := loadAbsolute_result op r ea s
  rw [memRead_of_external h] at hload hdevices hdiag
  exact ⟨t, ht, hload, hdevices, hdiag⟩

/-- The write acts on the state of the device that the pre-read left. -/
theorem storeAbsolute_external (op : Byte) (r : DataReg) :
    ∃ t, storeAbsolute op r ea s = .next t ∧ StoreResult ea (s.reg r) s t ∧
      t.devices = s.devices.set k
        ⟨name, .external id (Config.extWrite id (Config.extRead id st off).1 off (s.reg r))⟩ ∧
      t.diag = s.diag ∧ SameMemory s t := by
  obtain ⟨t, hw, hstore⟩ := storeAbsolute_of_not_readOnly (s := s) (ea := ea) op r (by simp [State.readOnlyAt, h])
  refine ⟨_, hstore, storeResult_of_write hw, ?_⟩
  have hmemory := store_sameMemory cyclesAbsolute hw (by simp [State.cellOf, h])
  rw [memRead_of_external h, memWrite_of_external ((note_locate _ _ ea).trans (setDevice_locate h _)),
    Effected.done.injEq] at hw
  subst hw
  exact ⟨by simp, by simp, hmemory⟩

end

/-- Settles O49: the read leaves the device in its place in a new state, on which a store's write then acts. -/
theorem absoluteAccessOfOtherDevice : Obligations.AbsoluteAccessOfOtherDevice := by
  unfold Obligations.AbsoluteAccessOfOtherDevice
  refine fun s ea off k id st name h => ⟨fun r i hi => ?_, fun v i hi => ?_⟩
  · obtain ⟨op, hexec⟩ := exec_absolute_load (s := s) hi
    rw [hexec]
    exact loadAbsolute_external h op r
  · obtain ⟨op, r, rfl, hexec⟩ := exec_store hi
    rw [hexec]
    exact storeAbsolute_external h op r

end Sys2Proof.Machine
end

section
/-! SUPPORT. Assembly: which registrations meet a mapping (20_memory.md R43; O38), and what a loader's block holds (R52; O39). -/

namespace Sys2Proof.Machine

/-! ### `add_device` -/

/-- Two legal ranges intersect by their ends where they share an address (20_memory.md R43). -/
theorem intersects_iff {m : Mapping} {low high : Addr} (hm : m.low ≤ m.high) (h : low ≤ high) :
    m.intersects low high = true ↔ ∃ a, m.owns a = true ∧ low ≤ a ∧ a ≤ high := by
  simp only [Mapping.intersects, owns_iff, Bool.and_eq_true, decide_eq_true_eq]
  constructor
  · rintro ⟨hlow, hhigh⟩
    by_cases hle : m.low ≤ low
    · exact ⟨low, ⟨hle, hlow⟩, BitVec.le_refl low, h⟩
    · exact ⟨m.low, ⟨BitVec.le_refl m.low, hm⟩, by bv_omega, hhigh⟩
  · rintro ⟨a, ⟨hma, ham⟩, hla, hah⟩
    exact ⟨BitVec.le_trans hla ham, BitVec.le_trans hma hah⟩

/-- In a sound state every mapping's range is legal. -/
theorem State.wf_range {s : State} (hs : s.wf = true) {m : Mapping} (hm : m ∈ s.mappings) : m.low ≤ m.high := by
  obtain ⟨-, hmappings, -⟩ := State.wf_iff.1 hs
  have hwf := List.all_eq_true.1 hmappings m hm
  simp only [Mapping.wf, rangeOk, Bool.and_eq_true, decide_eq_true_eq] at hwf
  exact hwf.1

theorem deviceName_of_device {s : State} {m : Mapping} {d : Device} (hd : s.devices[m.dev]? = some d) :
    s.deviceName m = d.name := by
  simp [State.deviceName, hd]

/-- Settles O38: the ranges the ends tell to intersect are those that share an address, and the search keeps the order. -/
theorem addDeviceRegistersOrNamesOverlap : Obligations.AddDeviceRegistersOrNamesOverlap := by
  unfold Obligations.AddDeviceRegistersOrNamesOverlap
  intro s dev low high hs hoff hdev
  rw [addDevice_eq, if_pos ⟨hoff, hdev⟩]
  refine ⟨fun hlt => ?_, fun hle hfree => ?_, fun hle pre m post d hsplit hpre hshare hd => ?_⟩
  · rw [if_neg (BitVec.not_le.2 hlt)]
    rfl
  · have hnone : s.mappings.find? (·.intersects low high) = none :=
      List.find?_eq_none.2 fun m hm hmeet => hfree m hm ((intersects_iff (State.wf_range hs hm) hle).1 hmeet)
    rw [if_pos hle, hnone]
  · have hrange : ∀ k, k ∈ pre ++ m :: post → k.low ≤ k.high := fun k hk => State.wf_range hs (hsplit ▸ hk)
    have hfirst : s.mappings.find? (·.intersects low high) = some m :=
      List.find?_eq_some_iff_append.2 ⟨(intersects_iff (hrange m (by simp)) hle).2 hshare, pre, post, hsplit,
        fun k hk => by simpa using mt (intersects_iff (hrange k (by simp [hk])) hle).1 (hpre k hk)⟩
    rw [if_pos hle, hfirst, ← deviceName_of_device hd]
    rfl

/-! ### Making a block -/

/-- An offset that a loader's list does not reach reads as it did before the load. -/
theorem read_loadCells_of_unlisted {len k : Nat} {init : List Host.Cell} (h : ∀ e ∈ init, e.1 % len ≠ k) (m : Memory) :
    Memory.read (loadCells len init m) k = Memory.read m k := by
  induction init generalizing m with
  | nil => rfl
  | cons e init ih =>
    obtain ⟨he, hinit⟩ := List.forall_mem_cons.1 h
    exact (ih hinit _).trans (Memory.read_write_of_ne m e.2 he.symm)

theorem blockLengthOk_iff {len : Nat} : blockLengthOk len = true ↔ 1 ≤ len ∧ len ≤ 65536 := by
  simp [blockLengthOk]

/-- Settles O39: only a legal length makes the block, from an empty memory that the image's offsets alone change. -/
theorem illegalBlockLengthIsRefused : Obligations.IllegalBlockLengthIsRefused := by
  unfold Obligations.IllegalBlockLengthIsRefused
  intro s name ro len init hoff
  rw [makeBlock_eq, if_pos hoff]
  refine ⟨fun hbad => ?_, fun hpos hmax => ?_⟩
  · rw [if_neg (by rw [blockLengthOk_iff]; omega)]
    rfl
  · rw [if_pos (blockLengthOk_iff.2 ⟨hpos, hmax⟩)]
    exact ⟨_, rfl, fun k hk => read_loadCells_of_unlisted hk []⟩

end Sys2Proof.Machine
end

section
/-! SUPPORT. The decoder and the encoder agree (30_encoding.md R80 to R86; O1, O2, O3, O4). -/

namespace Sys2Proof

/-! ### What `decode` answers for each format -/

/-- Format F1: the opcode alone is the instruction (30_encoding.md R80). -/
theorem decode_implied {op : Byte} {i : Instr} (h : opShape op = some (.implied i)) (rest : List Byte) :
    decode (op :: rest) = .instr i rest := by
  simp [decode, h]

/-- Format F2: the opcode and imm8 (30_encoding.md R80). -/
theorem decode_immediate {op : Byte} {mk : Byte → Instr} (h : opShape op = some (.immediate mk)) (v : Byte)
    (rest : List Byte) : decode (op :: v :: rest) = .instr (mk v) rest := by
  simp [decode, h]

/-- Format F3: the opcode, the low byte of the address, the high byte (30_encoding.md R80). -/
theorem decode_absolute {op : Byte} {mk : Addr → Instr} (h : opShape op = some (.absolute mk)) (lo hi : Byte)
    (rest : List Byte) : decode (op :: lo :: hi :: rest) = .instr (mk (joinBytes hi lo)) rest := by
  simp [decode, h]

/-- An unassigned opcode is rejected by name, whatever follows (30_encoding.md R85). -/
theorem decode_unassigned {op : Byte} (h : opShape op = none) (rest : List Byte) :
    decode (op :: rest) = .rejected (.unassigned op) := by
  simp [decode, h]

/-- The two address bytes that the encoder splits, the decoder joins again (20_memory.md R54). -/
theorem decode_encodeAbs {op : Byte} {mk : Addr → Instr} (h : opShape op = some (.absolute mk)) (ea : Addr)
    (rest : List Byte) : decode (encodeAbs op ea ++ rest) = .instr (mk ea) rest := by
  simp [encodeAbs, decode_absolute h, joinBytes_high_low]

/-- Two bytes after an assigned opcode are enough for every format (30_encoding.md R80). -/
theorem decode_two_operands {op : Byte} {sh : OpShape} (h : opShape op = some sh) (b c : Byte) :
    ∃ i rest, decode [op, b, c] = .instr i rest := by
  cases sh with
  | implied i => exact ⟨i, [b, c], decode_implied h [b, c]⟩
  | immediate mk => exact ⟨mk b, [c], decode_immediate h b [c]⟩
  | absolute mk => exact ⟨mk (joinBytes c b), [], decode_absolute h b c []⟩

/-- The unassigned opcodes are those without a row (30_encoding.md R84, R85). -/
theorem opShape_eq_none_iff {op : Byte} : opShape op = none ↔ op ∉ opShapes.map Prod.fst := by
  simp only [opShape, List.lookup_eq_none_iff, List.mem_map, not_exists, not_and, bne_iff_ne, ne_eq, @eq_comm _ op]

/-! ### The statements -/

/-- Settles O1: each instruction's opcode has the row of its format, which reads back what the encoder wrote. -/
theorem decodeOfEncodeReturnsInstruction : Obligations.DecodeOfEncodeReturnsInstruction := by
  unfold Obligations.DecodeOfEncodeReturnsInstruction
  intro i rest
  cases i with
  | clc | sec | cli | sei | clv | cld | sed => exact decode_implied rfl rest
  | ldyImm v | ldxImm v | ldaImm v => exact decode_immediate rfl v rest
  | sty ea | sta ea | stx ea | ldyAbs ea | ldaAbs ea | ldxAbs ea => exact decode_encodeAbs rfl ea rest

/-- Settles O2: every row of the decoder's table is the encoder's. -/
theorem decodedBytesAreTheEncoding : Obligations.DecodedBytesAreTheEncoding := by
  unfold Obligations.DecodedBytesAreTheEncoding
  intro bs i rest h
  exact eq_encode_append_of_decode h

/-- Settles O4: the sixteen opcodes are those of the decoder's rows. -/
theorem exactlyTheAssignedOpcodesDecode : Obligations.ExactlyTheAssignedOpcodesDecode := by
  unfold Obligations.ExactlyTheAssignedOpcodesDecode
  intro op
  cases hs : opShape op with
  | none => exact .inr ⟨opShape_eq_none_iff.1 hs, decode_unassigned hs⟩
  | some sh =>
    have hmem : op ∈ opShapes.map Prod.fst := by
      by_contra hn
      simp [opShape_eq_none_iff.2 hn] at hs
    exact .inl ⟨hmem, decode_two_operands hs⟩

/-- Settles O3: the decoder and the encoder evaluated on the written-out bytes. -/
theorem encodingVectorsDecode : Obligations.EncodingVectorsDecode := by
  unfold Obligations.EncodingVectorsDecode
  decide

end Sys2Proof
end

section
/-! SUPPORT. Which opcode tables the table-driven step runs without a refusal (30_encoding.md R82, 40_addressing_resolvers.md R106; O32). -/

namespace Sys2Proof

/-- A well-formed entry, if it denotes an instruction, is legally paired and has a cost (30_encoding.md R82). -/
theorem OpEntry.wellFormed_iff {e : OpEntry} :
    e.wellFormed = true ↔ (e.assigned = true → e.wellPaired = true ∧ e.cycles ≠ 0) := by
  cases h : e.assigned <;> simp [OpEntry.wellFormed, h]

end Sys2Proof

namespace Sys2Proof.Machine

/-- The machine's own table is well formed (30_encoding.md R84, R88). -/
theorem opTable_wellFormed (op : Byte) : (opTable op).wellFormed = true := by
  have rows : ∀ q ∈ opRows, q.2.wellFormed = true := by decide
  rcases opTable_cases op with ⟨-, h⟩ | ⟨-, -, -, -, q, hq, -, h⟩
  · rw [h]; rfl
  · rw [h]; exact rows q hq

/-- An accepted step over an assigned, ill-paired entry is refused (40_addressing_resolvers.md R106). -/
theorem stepTable_illPaired {table : Byte → OpEntry} {s : State} (ha : s.life.accepts = true)
    (has : (table s.nextOpcode).assigned = true) (hp : (table s.nextOpcode).wellPaired = false) :
    stepTable table s = .refused (.illPairedEntry s.nextOpcode) := by
  simp [stepTable_eq ha, has, hp]

/-- An accepted step over a well-formed entry answers a next state, and a cost is not what it lacks (45_execution_step.md
R142, R143): an unassigned opcode halts by its own fault, an entry with a cost runs on or halts with `DeviceMisuse`. -/
theorem stepTable_wellFormed {table : Byte → OpEntry} {s : State} (ha : s.life.accepts = true)
    (hw : (table s.nextOpcode).wellFormed = true) :
    ∃ t, stepTable table s = .next t ∧ ∀ op, t.life ≠ .haltedOnFault (.missingCycleCount op) := by
  rw [stepTable_eq ha]
  by_cases has : (table s.nextOpcode).assigned = true
  · obtain ⟨hp, hc⟩ := OpEntry.wellFormed_iff.1 hw has
    rw [if_pos has, if_pos hp]
    refine ⟨_, rfl, fun op => ?_⟩
    rcases runEntry_cyc s.nextOpcode _ (fetchByte (s.setLife .running)).1 hc (by simp) with
      ⟨hrun, -⟩ | ⟨⟨n, a, x, hmisuse⟩, -⟩
    · simp [hrun]
    · simp [hmisuse]
  · rw [if_neg has]
    exact ⟨_, rfl, by simp⟩

/-- Settles O32: only the entry of the opcode read counts. -/
theorem wellFormedTableRuns : Obligations.WellFormedTableRuns := by
  unfold Obligations.WellFormedTableRuns
  exact ⟨fun table s ha => ⟨fun hw => stepTable_wellFormed ha (hw _), stepTable_illPaired ha⟩, opTable_wellFormed⟩

end Sys2Proof.Machine
end

section
/-! SUPPORT. What the three addressing resolvers read and leave (40_addressing_resolvers.md R101 to R103; O29, O30). -/

namespace Sys2Proof.Machine

/-- Immediate is one byte fetched at PC (40_addressing_resolvers.md R102). -/
theorem resolveImmediate_eq (s : State) : resolveImmediate s = ((fetchByte s).1, 0x0000#16, (fetchByte s).2) := rfl

/-- Absolute is the address operand fetched, then a bus read there (40_addressing_resolvers.md R103). -/
theorem resolveAbsolute_eq (s : State) : resolveAbsolute s =
    ((memRead (fetchAddr s).1 (fetchAddr s).2).1, (fetchAddr s).2, (memRead (fetchAddr s).1 (fetchAddr s).2).2) := rfl

/-- The byte fetched is that of the bus read at PC. -/
theorem fetchByte_snd (s : State) : (fetchByte s).2 = (memRead s s.pc).2 := rfl

theorem fetchByte_sameMemory (s : State) : SameMemory s (fetchByte s).1 :=
  .of_bytes (fetchByte_cellOf s) (fetchByte_byteAt s)

/-- A byte fetched at an unmapped PC (20_memory.md R47). -/
theorem fetchByte_of_unmapped {s : State} (h : s.locate s.pc = none) : fetchByte s =
    (((s.logDiag (.unmappedRead s.pc)).note (.read s.pc Config.unmappedReadValue)).setPc (s.pc + 1#16),
      Config.unmappedReadValue) := by
  simp [fetchByte, memRead_of_unmapped h]

/-- Settles O29: Implied is no access; Immediate is one byte fetched. -/
theorem impliedAndImmediateResolve : Obligations.ImpliedAndImmediateResolve := by
  unfold Obligations.ImpliedAndImmediateResolve
  refine fun s => ⟨rfl, fun t ea v h => ?_⟩
  obtain ⟨rfl, rfl, rfl⟩ : (fetchByte s).1 = t ∧ 0x0000#16 = ea ∧ (fetchByte s).2 = v := by
    simpa [resolveImmediate_eq] using h
  refine ⟨fetchByte_snd s, rfl, fetchByte_pc s, fetchByte_trace s, fetchByte_reg s, fetchByte_p s, fetchByte_sp s,
    fetchByte_cyc s, fetchByte_life s, fetchByte_mappings s, fetchByte_sameMemory s, fun b hb => ?_, fun hnone => ?_⟩
  · rw [fetchByte_of_peek hb]
  · rw [fetchByte_of_unmapped (locate_of_lookup_none hnone)]
    exact ⟨rfl, by simp⟩

/-- The address operand fetched from two bytes that lie in memory blocks (20_memory.md R54). -/
theorem fetchAddr_of_peek {s : State} {lo hi : Byte} (hlo : s.peek s.pc = some lo)
    (hhi : s.peek (s.pc + 1#16) = some hi) : fetchAddr s =
      (((s.note (.read s.pc lo)).note (.read (s.pc + 1#16) hi)).setPc (s.pc + 2#16), joinBytes hi lo) := by
  have hnext : (fetchByte s).1.peek (fetchByte s).1.pc = some hi := by simpa using hhi
  have hpc : s.pc + 1#16 + 1#16 = s.pc + 2#16 := BitVec.add_assoc s.pc 1#16 1#16
  rw [fetchAddr_eq, fetchByte_of_peek hnext, fetchByte_of_peek hlo, setPc_pc, hpc]
  rfl

/-- Settles O30: the address operand is the two bytes joined, and the third read is the pre-read there. -/
theorem absoluteResolves : Obligations.AbsoluteResolves := by
  unfold Obligations.AbsoluteResolves
  intro s lo hi v ea hlo hhi hea hv
  obtain rfl : joinBytes hi lo = ea := BitVec.eq_of_toNat_eq ((joinBytes_toNat hi lo).trans hea.symm)
  have hfetch := fetchAddr_of_peek hlo hhi
  have hthird : (fetchAddr s).1.peek (fetchAddr s).2 = some v := by simpa [hfetch] using hv
  rw [resolveAbsolute_eq, memRead_of_peek hthird, hfetch]
  rfl

end Sys2Proof.Machine
end

section
/-! SUPPORT. What the loads change and what they leave (41_loads.md R110 to R116; O13 to O16). -/

namespace Sys2Proof.Machine

/-! ### Loads by their mode -/

/-- The registers and the cycle counter are no part of the bus. -/
theorem sameBus_setReg (r : DataReg) (v : Byte) (n : Nat) (s : State) :
    SameBus s (((s.setReg r v).setLoadFlags v).addCycles n) :=
  ⟨by simp, by simp, by simp, by simp, by simp⟩

/-- An immediate load makes no bus access. -/
theorem loadImmediate_sameBus (op : Byte) (r : DataReg) (v : Byte) (s : State) :
    ∃ t, loadImmediate op r v s = .next t ∧ LoadResult r v s t ∧ SameBus s t :=
  ⟨_, loadImmediate_eq op r v s, loadResult_setReg r v _ s, sameBus_setReg r v _ s⟩

/-- An absolute load makes no bus access but its pre-read, whose byte it takes. -/
theorem loadAbsolute_sameBus (op : Byte) (r : DataReg) (ea : Addr) (s : State) :
    ∃ t, loadAbsolute op r ea s = .next t ∧ LoadResult r (memRead s ea).2 s t ∧ SameBus (memRead s ea).1 t :=
  ⟨_, loadAbsolute_eq op r ea s, (loadResult_setReg r _ _ _).of_memRead, sameBus_setReg r _ _ _⟩

/-- An immediate load leaves the memory and the control fields, and costs 2 cycles. -/
theorem loadImmediate_frame (op : Byte) (r : DataReg) (v : Byte) (s : State) :
    ∃ t, loadImmediate op r v s = .next t ∧ SameMemory s t ∧ SameControl s t ∧ t.cyc = s.cyc + 2 :=
  ⟨_, loadImmediate_eq op r v s, .of_bytes (fun a => by simp) fun c => by simp, ⟨by simp, by simp, by simp, by simp⟩,
    by simp [cyclesImmediate]⟩

/-- So does an absolute load, its pre-read included, and costs 4. -/
theorem loadAbsolute_frame (op : Byte) (r : DataReg) (ea : Addr) (s : State) :
    ∃ t, loadAbsolute op r ea s = .next t ∧ SameMemory s t ∧ SameControl s t ∧ t.cyc = s.cyc + 4 :=
  ⟨_, loadAbsolute_eq op r ea s, .of_bytes (fun a => by simp) fun c => by simp, ⟨by simp, by simp, by simp, by simp⟩,
    by simp [cyclesAbsolute]⟩

/-- Settles O13: each of the six is the load of its mode into its register. -/
theorem loadsSetRegisterZeroNegative : Obligations.LoadsSetRegisterZeroNegative := by
  unfold Obligations.LoadsSetRegisterZeroNegative
  exact fun s v ea => ⟨loadImmediate_sameBus opLDAimm .a v s, loadImmediate_sameBus opLDXimm .x v s,
    loadImmediate_sameBus opLDYimm .y v s, loadAbsolute_sameBus opLDAabs .a ea s, loadAbsolute_sameBus opLDXabs .x ea s,
    loadAbsolute_sameBus opLDYabs .y ea s⟩

/-- Settles O14: each load has the frame and the cost of its mode. -/
theorem loadsLeaveMemoryAndAddCost : Obligations.LoadsLeaveMemoryAndAddCost := by
  unfold Obligations.LoadsLeaveMemoryAndAddCost
  intro s v ea i
  simp only [List.mem_cons, List.not_mem_nil, or_false]
  constructor
  · rintro (rfl | rfl | rfl)
    · exact loadImmediate_frame opLDAimm .a v s
    · exact loadImmediate_frame opLDXimm .x v s
    · exact loadImmediate_frame opLDYimm .y v s
  · rintro (rfl | rfl | rfl)
    · exact loadAbsolute_frame opLDAabs .a ea s
    · exact loadAbsolute_frame opLDXabs .x ea s
    · exact loadAbsolute_frame opLDYabs .y ea s

/-! ### Absolute loads by what owns the address -/

/-- At a memory block the pre-read answers the byte there and changes nothing but the model's own trace. -/
theorem loadAbsolute_of_peek (op : Byte) (r : DataReg) {s : State} {ea : Addr} {v : Byte} (h : s.peek ea = some v) :
    ∃ t, loadAbsolute op r ea s = .next t ∧ LoadResult r v s t ∧ t.devices = s.devices ∧ t.diag = s.diag ∧
      t.draws = s.draws ∧ t.trace = .read ea v :: s.trace := by
  obtain ⟨t, ht, hload, hbus⟩ := loadAbsolute_sameBus op r ea s
  rw [memRead_of_peek h] at hload hbus
  obtain ⟨hdevices, -, hdiag, htrace, hdraws⟩ := hbus
  exact ⟨t, ht, hload, hdevices, hdiag, hdraws, htrace⟩

/-- Settles O15: each of the three is the absolute load into its register. -/
theorem absoluteLoadOfMemoryByte : Obligations.AbsoluteLoadOfMemoryByte := by
  unfold Obligations.AbsoluteLoadOfMemoryByte
  exact fun s ea v h => ⟨loadAbsolute_of_peek opLDAabs .a h, loadAbsolute_of_peek opLDXabs .x h,
    loadAbsolute_of_peek opLDYabs .y h⟩

/-- At an unmapped address (20_memory.md R47). -/
theorem loadAbsolute_of_unmapped (op : Byte) (r : DataReg) {s : State} {ea : Addr} (h : s.locate ea = none) :
    ∃ t, loadAbsolute op r ea s = .next t ∧ LoadResult r 0x00#8 s t ∧ t.flag .z = true ∧ t.flag .n = false ∧
      t.diag = s.diag ++ [.unmappedRead ea] ∧ t.devices = s.devices ∧ t.draws = s.draws := by
  obtain ⟨t, ht, hload, hbus⟩ := loadAbsolute_sameBus op r ea s
  rw [memRead_of_unmapped h] at hload hbus
  obtain ⟨hdevices, -, hdiag, -, hdraws⟩ := hbus
  have ⟨_, _, hz, hn, _⟩ := hload
  have hbit : Config.unmappedReadValue.getLsbD 7 = false := by decide
  exact ⟨t, ht, hload, hz.2 rfl, hn.trans hbit, hdiag, hdevices, hdraws⟩

/-- At a stub (20_memory.md R53). -/
theorem loadAbsolute_of_stub (op : Byte) (r : DataReg) {s : State} {ea off : Addr} {k : Nat} {name : String}
    (h : s.locate ea = some (k, ⟨name, .stub⟩, off)) :
    ∃ t, loadAbsolute op r ea s = .next t ∧ LoadResult r (Config.draw s.draws) s t ∧ t.diag = s.diag ∧
      t.devices = s.devices ∧ t.draws = s.draws + 1 := by
  obtain ⟨t, ht, hload, hbus⟩ := loadAbsolute_sameBus op r ea s
  rw [memRead_of_stub h] at hload hbus
  obtain ⟨hdevices, -, hdiag, -, hdraws⟩ := hbus
  exact ⟨t, ht, hload, hdiag, hdevices, hdraws⟩

/-- Settles O16: the load takes what the pre-read answers at such an address. -/
theorem absoluteLoadOfUnmappedOrStub : Obligations.AbsoluteLoadOfUnmappedOrStub := by
  unfold Obligations.AbsoluteLoadOfUnmappedOrStub
  intro s ea r i hi
  obtain ⟨op, hexec⟩ := exec_absolute_load (s := s) hi
  rw [hexec]
  exact ⟨fun h => loadAbsolute_of_unmapped op r (locate_of_lookup_none h), fun _ _ _ h => loadAbsolute_of_stub op r h⟩

end Sys2Proof.Machine
end

section
/-! SUPPORT. What the flag operations change and what they leave (42_flag_ops.md R120; O17). -/

namespace Sys2Proof.Machine

/-- Setting a flag and counting cycles write the flag's bit of P and CYC. -/
theorem flagResult_setFlag (f : Flag) (b : Bool) (n : Nat) (s : State) :
    FlagResult f b s ((s.setFlag f b).addCycles n) := by
  have hother : SameFlagsBut [f] s ((s.setFlag f b).addCycles n) := fun g hg =>
    setFlag_flag_of_ne s b (List.ne_of_not_mem_cons hg)
  exact ⟨setFlag_flag_self s f b, hother, fun q => by simp, ⟨by simp, by simp, by simp, by simp⟩, by simp,
    by simp, by simp, by simp, by simp, by simp⟩

/-- A flag operation completes, and completes again with the P it left. -/
theorem flagImplied_twice (op : Byte) (f : Flag) (b : Bool) (s : State) :
    ∃ t u, flagImplied op f b s = .next t ∧ FlagResult f b s t ∧ flagImplied op f b t = .next u ∧ u.p = t.p :=
  ⟨_, _, flagImplied_eq op f b s, flagResult_setFlag f b _ s, flagImplied_eq op f b _, putFlag_idem f b s.p⟩

/-- Settles O17: each of the seven is the shared flag operation on its flag and value. -/
theorem flagOperationsTouchOneBit : Obligations.FlagOperationsTouchOneBit := by
  unfold Obligations.FlagOperationsTouchOneBit
  intro s f b i hi
  simp only [List.mem_cons, Prod.mk.injEq, List.not_mem_nil, or_false] at hi
  rcases hi with ⟨rfl, rfl, rfl⟩ | ⟨rfl, rfl, rfl⟩ | ⟨rfl, rfl, rfl⟩ | ⟨rfl, rfl, rfl⟩ | ⟨rfl, rfl, rfl⟩ |
    ⟨rfl, rfl, rfl⟩ | ⟨rfl, rfl, rfl⟩
  · exact flagImplied_twice opCLC .c false s
  · exact flagImplied_twice opSEC .c true s
  · exact flagImplied_twice opCLI .i false s
  · exact flagImplied_twice opSEI .i true s
  · exact flagImplied_twice opCLV .v false s
  · exact flagImplied_twice opCLD .d false s
  · exact flagImplied_twice opSED .d true s

end Sys2Proof.Machine
end

section
/-! SUPPORT. What the stores write and what they leave, by what owns the address (43_stores.md R130 to R133; O18 to O20). -/

namespace Sys2Proof.Machine

/-! ### The bus write of a store -/

/-- A completed write at an address that reaches a byte of a memory block changes that block's device and nothing else but
the model's own trace (20_memory.md R50). -/
theorem memWrite_of_cell {op : Option Byte} {s t : State} {a : Addr} {v : Byte} {c : Nat × Nat}
    (h : memWrite op s a v = .done t) (hc : s.cellOf a = some c) : ∃ d, t = (s.setDevice c.1 d).note (.write a v) := by
  obtain ⟨n, ro, len, cells, off, hl, -⟩ := block_of_cellOf hc
  cases ro with
  | true => simp [memWrite, hl] at h
  | false =>
    simp only [memWrite, hl, Effected.done.injEq] at h
    exact ⟨_, h.symm⟩

/-- In a sound state a completed write sets the byte its address reaches, seen through every address that reaches it, and
leaves every other byte (20_memory.md R50, R63). -/
theorem memWrite_memoryWritten {op : Option Byte} {s t : State} {a : Addr} {v : Byte} {c : Nat × Nat} (hs : s.wf = true)
    (h : memWrite op s a v = .done t) (hc : s.cellOf a = some c) : MemoryWritten c v s t := by
  refine ⟨(memWrite_frame h).cellOf, fun b hb => memWrite_peek_self hs h hc hb, fun b hb => ?_,
    fun d hd => memWrite_byteAt_of_ne h hc hd⟩
  cases hreach : s.cellOf b with
  | none => simp [State.peek, (memWrite_frame h).cellOf, hreach]
  | some d => exact memWrite_peek_of_ne h hc hreach fun e => hb (hreach.trans (congrArg some e))

/-- A bus write at a stub (20_memory.md R53). -/
theorem memWrite_of_stub {s : State} {a : Addr} {i : Nat} {n : String} {off : Addr} (op : Option Byte) (v : Byte)
    (h : s.locate a = some (i, ⟨n, .stub⟩, off)) : memWrite op s a v = .done (s.note (.write a v)) := by
  simp [memWrite, h]

/-- A read-only block owns no address that reaches no memory byte. -/
theorem not_readOnly_of_no_cell {s : State} {a : Addr} (h : s.cellOf a = none) : s.readOnlyAt a = false := by
  by_contra hro
  obtain ⟨i, n, len, cells, off, hl⟩ := block_of_readOnlyAt (Bool.eq_true_of_not_eq_false hro)
  simp [State.cellOf, hl] at h

/-! ### Stores that complete, and stores that halt -/

/-- The store of each register, with its opcode. -/
theorem exec_store_opcode {s : State} {ea : Addr} {op v : Byte} {i : Instr}
    (h : (op, v, i) ∈ [(opSTA, s.a, Instr.sta ea), (opSTX, s.x, .stx ea), (opSTY, s.y, .sty ea)]) :
    ∃ r, s.reg r = v ∧ exec i s = storeAbsolute op r ea s := by
  simp only [List.mem_cons, Prod.mk.injEq, List.not_mem_nil, or_false] at h
  rcases h with ⟨rfl, rfl, rfl⟩ | ⟨rfl, rfl, rfl⟩ | ⟨rfl, rfl, rfl⟩
  · exact ⟨.a, rfl, rfl⟩
  · exact ⟨.x, rfl, rfl⟩
  · exact ⟨.y, rfl, rfl⟩

theorem storeAbsolute_result {s : State} {ea : Addr} (op : Byte) (r : DataReg) (h : s.readOnlyAt ea = false) :
    ∃ t, storeAbsolute op r ea s = .next t ∧ StoreResult ea (s.reg r) s t := by
  obtain ⟨t, hw, hstore⟩ := storeAbsolute_of_not_readOnly op r h
  exact ⟨_, hstore, storeResult_of_write hw⟩

/-- A store into a read-only block halts after its pre-read, naming the device there (20_memory.md R51). -/
theorem storeAbsolute_of_readOnly {s : State} {ea : Addr} (op : Byte) (r : DataReg) (h : s.readOnlyAt ea = true) :
    ∃ i d off, s.locate ea = some (i, d, off) ∧ storeAbsolute op r ea s =
      .next (((memRead s ea).1.note (.writeFatal ea (s.reg r))).halt (.deviceMisuse d.name ea (s.reg r) (some op))) := by
  rcases storeAbsolute_cases op r ea s with ⟨t, hw, -⟩ | ⟨n, ⟨i, len, cells, off, hl⟩, hstore⟩
  · obtain ⟨i, n, len, cells, off, hl⟩ := block_of_readOnlyAt h
    simp [memWrite, memRead_locate_block.2 hl] at hw
  · exact ⟨i, _, off, memRead_locate_block.1 hl, hstore⟩

theorem storeAbsolute_fault {s : State} {ea : Addr} (op : Byte) (r : DataReg) (h : s.readOnlyAt ea = true) :
    ∃ t, storeAbsolute op r ea s = .next t ∧ StoreFault op ea (s.reg r) s t := by
  obtain ⟨i, d, off, hl, hstore⟩ := storeAbsolute_of_readOnly op r h
  exact ⟨_, hstore, ⟨i, d, off, hl, rfl⟩, fun q => by simp, by simp, by simp, by simp, by simp, by simp,
    .of_bytes (fun a => by simp) fun c => by simp, by simp⟩

/-! ### Where no memory block owns the address -/

/-- A store at an address that reaches no memory byte completes and leaves the memory; its write is on the state its
pre-read left. -/
theorem storeAbsolute_of_no_cell {s : State} {ea : Addr} (op : Byte) (r : DataReg) (h : s.cellOf ea = none) :
    ∃ t, memWrite (some op) (memRead s ea).1 ea (s.reg r) = .done t ∧
      storeAbsolute op r ea s = .next (t.addCycles cyclesAbsolute) ∧ SameMemory s (t.addCycles cyclesAbsolute) := by
  obtain ⟨t, hw, hstore⟩ := storeAbsolute_of_not_readOnly op r (not_readOnly_of_no_cell h)
  exact ⟨t, hw, hstore, store_sameMemory _ hw h⟩

/-- At an unmapped address the pre-read and the write each log their diagnostic (20_memory.md R47, R48). -/
theorem storeAbsolute_of_unmapped {s : State} {ea : Addr} (op : Byte) (r : DataReg) (h : s.locate ea = none) :
    ∃ t, storeAbsolute op r ea s = .next t ∧ SameMemory s t ∧
      t.diag = s.diag ++ [.unmappedRead ea, .unmappedWrite ea (s.reg r)] := by
  have hcell : s.cellOf ea = none := by simp [State.cellOf, h]
  obtain ⟨t, hw, hstore, hmem⟩ := storeAbsolute_of_no_cell op r hcell
  rw [memRead_of_unmapped h, memWrite_of_unmapped _ _ (by simpa using h), Effected.done.injEq] at hw
  subst hw
  exact ⟨_, hstore, hmem, by simp⟩

/-- Outside memory; and at a stub neither the pre-read nor the write changes a device or logs a diagnostic (20_memory.md
R53). -/
theorem storeAbsolute_outside_memory {s : State} {ea : Addr} (op : Byte) (r : DataReg) (h : s.cellOf ea = none) :
    ∃ t, storeAbsolute op r ea s = .next t ∧ SameMemory s t ∧
      ((∃ k name off, s.locate ea = some (k, ⟨name, .stub⟩, off)) → t.devices = s.devices ∧ t.diag = s.diag) := by
  obtain ⟨t, hw, hstore, hmem⟩ := storeAbsolute_of_no_cell op r h
  refine ⟨_, hstore, hmem, fun ⟨k, name, off, hl⟩ => ?_⟩
  rw [memRead_of_stub hl, memWrite_of_stub _ _ (by simpa using hl), Effected.done.injEq] at hw
  subst hw
  exact ⟨by simp, by simp⟩

/-! ### In a read-write block -/

/-- A store that completes at a byte of a memory block writes that byte alone: its pre-read changes no byte, and no device,
diagnostic or draw. -/
theorem storeAbsolute_of_cell {s : State} {ea : Addr} {c : Nat × Nat} (op : Byte) (r : DataReg) (hs : s.wf = true)
    (hc : s.cellOf ea = some c) (hro : s.readOnlyAt ea = false) :
    ∃ t, storeAbsolute op r ea s = .next t ∧ MemoryWritten c (s.reg r) s t ∧ t.diag = s.diag ∧ t.draws = s.draws ∧
      ∀ k, k ≠ c.1 → t.devices[k]? = s.devices[k]? := by
  obtain ⟨t, hw, hstore⟩ := storeAbsolute_of_not_readOnly op r hro
  obtain ⟨w, hpeek⟩ := peek_of_cellOf hc
  rw [memRead_of_peek hpeek] at hw
  have hmem : MemoryWritten c (s.reg r) (s.note (.read ea w)) t := memWrite_memoryWritten hs hw hc
  obtain ⟨d, rfl⟩ := memWrite_of_cell hw hc
  exact ⟨_, hstore, hmem, by simp, by simp, fun k hk => by simp [List.getElem?_set_ne hk.symm]⟩

/-! ### The statements -/

/-- Settles O18: whether a read-only block owns the address decides between the write and the halt. -/
theorem storesWriteOrHalt : Obligations.StoresWriteOrHalt := by
  unfold Obligations.StoresWriteOrHalt
  intro s ea op v i hi
  obtain ⟨r, rfl, hexec⟩ := exec_store_opcode hi
  rw [hexec]
  exact ⟨storeAbsolute_result op r, storeAbsolute_fault op r,
    fun h => storeAbsolute_of_unmapped op r (locate_of_lookup_none h)⟩

/-- Settles O19: each of the three is the absolute store of its register. -/
theorem storeWritesOneMemoryByte : Obligations.StoreWritesOneMemoryByte := by
  unfold Obligations.StoreWritesOneMemoryByte
  intro s ea c v i hi hs hc hro
  obtain ⟨op, r, rfl, hexec⟩ := exec_store hi
  rw [hexec]
  exact storeAbsolute_of_cell op r hs hc hro

/-- Settles O20: each of the three is an absolute store, which outside memory has no byte to write. -/
theorem storeOutsideMemoryLeavesMemory : Obligations.StoreOutsideMemoryLeavesMemory := by
  unfold Obligations.StoreOutsideMemoryLeavesMemory
  intro s ea i hi hc
  simp only [List.mem_cons, List.not_mem_nil, or_false] at hi
  rcases hi with rfl | rfl | rfl
  · exact storeAbsolute_outside_memory opSTA .a hc
  · exact storeAbsolute_outside_memory opSTX .x hc
  · exact storeAbsolute_outside_memory opSTY .y hc

end Sys2Proof.Machine
end

section
/-! SUPPORT. The step: it runs what the bytes at PC decode to (45_execution_step.md R140, R141; O5, O6), it is the table-driven step on the spec's table (R141; O7), and what it halts on and what it costs (R142 to R145; O8, O11, O31). -/

namespace Sys2Proof

/-- The instructions of a format do what `runEntry` does with the entry `e` of their opcode `op` after its operand bytes
have been fetched: `e`'s resolver is the format's, and `exec` is `e`'s effect on what the resolver answers, at `e`'s cost. -/
def OpShape.RunsEntry (op : Byte) (e : OpEntry) : OpShape → Prop
  | .implied i => e.resolver = .implied ∧ ∀ s, Machine.exec i s =
      .next (Machine.conclude op e.cycles (Machine.applyEffect op e.effect 0x0000#16 0x00#8 s))
  | .immediate mk => e.resolver = .immediate ∧ ∀ v s, Machine.exec (mk v) s =
      .next (Machine.conclude op e.cycles (Machine.applyEffect op e.effect 0x0000#16 v s))
  | .absolute mk => e.resolver = .absolute ∧ ∀ ea s, Machine.exec (mk ea) s =
      .next (Machine.conclude op e.cycles
        (Machine.applyEffect op e.effect ea (Machine.memRead s ea).2 (Machine.memRead s ea).1))

end Sys2Proof

namespace Sys2Proof.Machine

/-! ### Decode and dispatch, and the opcode table -/

/-- Row by row, the dispatch of the decoder's table is the opcode table's (30_encoding.md R84). -/
theorem runsEntry_of_opShape {op : Byte} {sh : OpShape} (h : opShape op = some sh) : sh.RunsEntry op (opTable op) := by
  have rows : ∀ p ∈ opShapes, p.2.RunsEntry p.1 (opTable p.1) := by
    simp only [opShapes, List.forall_mem_cons, List.not_mem_nil, false_implies, implies_true, and_true]
    and_intros <;> intros <;> rfl
  rcases opShape_cases op with hn | ⟨p, hp, rfl, hs⟩
  · rw [hn] at h; cases h
  · rw [hs, Option.some.injEq] at h
    exact h ▸ rows p hp

/-- Fetching an instruction and running it is running the entry of its opcode: the operand bytes fetched are the
resolver's, and the pre-read of an Absolute instruction comes after them in both (40_addressing_resolvers.md R103). -/
theorem runFetched_of_opShape {u : State} {sh : OpShape} (h : opShape (fetchByte u).2 = some sh) :
    runFetched (fetchInstr u) = .next (runEntry (fetchByte u).2 (opTable (fetchByte u).2) (fetchByte u).1) := by
  have hrun := runsEntry_of_opShape h
  cases sh with
  | implied i | immediate mk | absolute mk =>
    obtain ⟨hres, hexec⟩ := hrun
    simp only [fetchInstr, h, runFetched, hexec, runEntry, hres]
    rfl

/-- A step at an unassigned opcode halts there (45_execution_step.md R142). -/
theorem step_of_unassigned {s : State} (ha : s.life.accepts = true) (h : opShape s.nextOpcode = none) :
    step s = .next ((fetchByte (s.setLife .running)).1.halt (.unimplementedOpcode s.nextOpcode)) := by
  rw [step_of_accepts ha, fetch_of_unassigned h]
  rfl

/-- Settles O7: an unassigned opcode halts in both, and an assigned one has a legally paired entry, which does what its
decoded instruction does. -/
theorem stepAgreesWithTableStep : Obligations.StepAgreesWithTableStep := by
  unfold Obligations.StepAgreesWithTableStep
  intro s
  by_cases ha : s.life.accepts = true
  · rw [stepTable_eq ha]
    cases hs : opShape s.nextOpcode with
    | none =>
      have hun : ¬(opTable s.nextOpcode).assigned = true := fun has => (opTable_assigned_iff _).1 has hs
      rw [if_neg hun, step_of_unassigned ha hs]
    | some sh =>
      have has : (opTable s.nextOpcode).assigned = true := (opTable_assigned_iff _).2 (by simp [hs])
      obtain ⟨hpaired, -⟩ := OpEntry.wellFormed_iff.1 (opTable_wellFormed s.nextOpcode) has
      rw [if_pos has, if_pos hpaired, step_of_accepts ha]
      exact runFetched_of_opShape hs
  · rw [step, if_neg ha, stepTable, if_neg ha]

/-! ### The instruction at PC -/

/-- Settles O5: the instruction fetched is the one the bytes decode to. -/
theorem stepRunsDecodedInstruction : Obligations.StepRunsDecodedInstruction := by
  unfold Obligations.StepRunsDecodedInstruction
  intro s n i ha hd
  have hfetch := fetchBytes_frame (s.setLife .running) n
  refine ⟨?_, ?_, hfetch.life⟩
  · rw [step_of_accepts ha, fetchInstr_of_decode hd]
    rfl
  · rw [hfetch.pc, fetchBytes_length, setLife_pc]

/-- Settles O6: bytes that lie in memory blocks are the bytes the bus answers, and an encoding decodes to its instruction. -/
theorem stepRunsInstructionInMemory : Obligations.StepRunsInstructionInMemory := by
  unfold Obligations.StepRunsInstructionInMemory
  intro s i ha hmem
  have hbytes := fetchBytes_of_peek (encode i) (s.setLife .running) (by simpa using hmem)
  have hd : decode (fetchBytes (encode i).length (s.setLife .running)).2 = .instr i [] := by
    rw [hbytes]
    simpa using decodeOfEncodeReturnsInstruction i []
  rw [(stepRunsDecodedInstruction s _ i ha hd).1, hbytes]
  rfl

/-! ### An unassigned opcode -/

/-- The decoder knows no opcode whose entry has the empty mnemonic (30_encoding.md R82, R85). -/
theorem opShape_of_mnemonic {op : Byte} (h : (opTable op).mnemonic = "") : opShape op = none := by
  by_contra hs
  have has := (opTable_assigned_iff op).2 hs
  simp [OpEntry.assigned, h] at has

/-- Settles O8: the step is the fetch of one byte, which leaves all but PC and the trace, and the halt. -/
theorem unassignedOpcodeHaltsAfterOneRead : Obligations.UnassignedOpcodeHaltsAfterOneRead := by
  unfold Obligations.UnassignedOpcodeHaltsAfterOneRead
  refine fun s ha => ⟨fun hm => ?_, fun hnone => ?_⟩
  · exact ⟨_, step_of_unassigned ha (opShape_of_mnemonic hm), rfl, by simp, fun q => by simp, by simp, by simp, by simp,
      by simp, fetchByte_sameMemory (s.setLife .running), fetchByte_trace (s.setLife .running)⟩
  · have hfetch := fetchByte_of_unmapped (s := s.setLife .running) (locate_of_lookup_none hnone)
    have hop : s.nextOpcode = 0x00#8 := congrArg Prod.snd hfetch
    refine ⟨_, step_of_unassigned ha (by rw [hop]; rfl), by simp [hop], ?_⟩
    rw [hfetch]
    rfl

/-! ### The cost -/

/-- Settles O11: the step is the run of its table entry, which costs what the table declares or halts at its store, or the
halt at an unassigned opcode. -/
theorem completedStepAddsDeclaredCost : Obligations.CompletedStepAddsDeclaredCost := by
  unfold Obligations.CompletedStepAddsDeclaredCost
  intro s t h
  rw [stepAgreesWithTableStep s] at h
  rcases (stepTable_next_cases h).2 with ⟨has, -, rfl⟩ | ⟨-, rfl⟩
  · obtain ⟨-, hcost⟩ := OpEntry.wellFormed_iff.1 (opTable_wellFormed s.nextOpcode) has
    rcases runEntry_cyc s.nextOpcode _ (fetchByte (s.setLife .running)).1 hcost (by simp) with
      ⟨hrun, hcyc⟩ | ⟨⟨n, a, x, hfault⟩, hcyc⟩
    · exact ⟨fun _ => ⟨has, by simp [hcyc, opTable_cost _ has]⟩, fun hdead => by simp [State.alive, hrun] at hdead⟩
    · exact ⟨fun halive => by simp [State.alive, hfault] at halive, fun _ => by simp [hcyc]⟩
  · exact ⟨fun halive => (nomatch halive), fun _ => by simp⟩

/-- An entry run at cost zero and at cost 1, from a state with LIFE Running: the zero-cost check comes after the effect
(45_execution_step.md R143), and a store that raised ends the step before it (R144). -/
theorem runEntry_zero_cost (op : Byte) {e : OpEntry} {u : State} (he : e.cycles = 0) (hu : u.life = .running) :
    ((runEntry op { e with cycles := 1 } u).alive = true →
      runEntry op e u = { runEntry op { e with cycles := 1 } u with
        cyc := u.cyc, life := .haltedOnFault (.missingCycleCount op) }) ∧
    ((runEntry op { e with cycles := 1 } u).alive = false → runEntry op e u = runEntry op { e with cycles := 1 } u) := by
  simp only [runEntry, he]
  rcases applyEffect_cases op e.effect (resolve e.resolver u).2.1 (resolve e.resolver u).2.2 (resolve e.resolver u).1 with
    ⟨t, h, hcyc, hlife⟩ | ⟨n, a, x, t, h, -⟩ <;> rw [h]
  · refine ⟨fun _ => ?_, fun hdead => ?_⟩
    · rw [← resolve_cyc e.resolver u, ← hcyc]
      rfl
    · simp [conclude, State.alive, hlife, resolve_life, hu] at hdead
  · exact ⟨fun halive => (nomatch halive), fun _ => rfl⟩

/-- An accepted step over an assigned, legally paired entry runs it (45_execution_step.md R141). -/
theorem stepTable_runs {table : Byte → OpEntry} {s : State} {e : OpEntry} (ha : s.life.accepts = true)
    (he : table s.nextOpcode = e) (has : e.assigned = true) (hp : e.wellPaired = true) :
    stepTable table s = .next (runEntry s.nextOpcode e (fetchByte (s.setLife .running)).1) := by
  rw [stepTable_eq ha, he, if_pos has, if_pos hp]

/-- Settles O31: both steps run the entry of the opcode read, at its two costs. -/
theorem zeroCostEntryHaltsAfterItsEffect : Obligations.ZeroCostEntryHaltsAfterItsEffect := by
  unfold Obligations.ZeroCostEntryHaltsAfterItsEffect
  intro table s e ha he has hp hc
  obtain ⟨halive, hdead⟩ := runEntry_zero_cost s.nextOpcode (u := (fetchByte (s.setLife .running)).1) hc (by simp)
  refine ⟨_, stepTable_runs ha (if_pos rfl) has hp, fun h => ?_, fun h => ?_⟩
  · rw [stepTable_runs ha he has hp, halive h, fetchByte_cyc, setLife_cyc]
  · rw [stepTable_runs ha he has hp, hdead h]

end Sys2Proof.Machine
end

section
/-! SUPPORT. Which commands are refused (70_reset_and_hazards.md R182, 60_exceptions.md R161; O34), and what a configuration error leaves (R155; O50). -/

namespace Sys2Proof.Machine

/-! ### Refusals -/

/-- A command not accepted changes nothing (70_reset_and_hazards.md R182). -/
theorem runCommand_refused {c : HostCommand} {s : State} (h : c.accepted s = false) :
    runCommand c s = ⟨s, .refused, []⟩ := by
  simp only [HostCommand.accepted, HostCommand.acceptedIn] at h
  cases c with
  | makeBlock name ro len init => exact (makeBlock_eq ..).trans (if_neg (by simpa using h))
  | makeStub name => exact (makeDevice_eq ..).trans (if_neg (by simpa using h))
  | makeExternal name id st => exact (makeDevice_eq ..).trans (if_neg (by simpa using h))
  | addDevice dev low high => exact (addDevice_eq ..).trans (if_neg fun hoff => by simp [hoff.1] at h)
  | powerOn => exact powerOn_refused (by simpa using h)
  | reset => exact softReset_refused (by simpa using h)
  | step =>
    rcases stepCommand_cases s with ⟨ha, -⟩ | ⟨-, hr⟩
    · exact absurd ha (by simpa using h)
    · exact hr

/-- In HaltedOnFault no command is accepted (60_exceptions.md R161). -/
theorem not_accepted_of_halted {s : State} {f : Fault} (h : s.life = .haltedOnFault f) (c : HostCommand) :
    c.accepted s = false := by
  cases c <;> simp [HostCommand.accepted, HostCommand.acceptedIn, Life.accepts, h]

theorem step_refused {s : State} (h : s.life.accepts = false) : step s = .refused (.commandRefused s.life) :=
  if_neg (by simp [h])

/-- Settles O34: no command is accepted in HaltedOnFault, and one not accepted changes nothing. -/
theorem haltedIsForEver : Obligations.HaltedIsForEver := by
  unfold Obligations.HaltedIsForEver
  intro s f c hl
  rw [runCommand_refused (not_accepted_of_halted hl c)]
  exact ⟨rfl, rfl, step_refused (by rw [hl]; rfl)⟩

/-! ### What reports a configuration error -/

theorem makeDevice_reply_ne_configError (s : State) (d : Device) (e : ConfigError) :
    (makeDevice s d).reply ≠ .configError e := by
  rw [makeDevice_eq]
  split <;> nofun

theorem finishCommand_reply_ne_configError (s : State) (x : Effected) (e : ConfigError) :
    (finishCommand s x).reply ≠ .configError e := by
  cases x <;> nofun

theorem powerOn_reply_ne_configError (s : State) (e : ConfigError) : (powerOn s).reply ≠ .configError e := by
  unfold powerOn
  split
  · exact finishCommand_reply_ne_configError s _ e
  · nofun

theorem softReset_reply_ne_configError (s : State) (e : ConfigError) : (softReset s).reply ≠ .configError e := by
  unfold softReset
  split
  · exact finishCommand_reply_ne_configError s _ e
  · nofun

theorem stepCommand_reply_ne_configError (s : State) (e : ConfigError) : (stepCommand s).reply ≠ .configError e := by
  rcases stepCommand_cases s with ⟨-, t, -, h⟩ | ⟨-, h⟩ <;> rw [h]
  · change t.life.reply ≠ .configError e
    cases t.life <;> nofun
  · nofun

/-- Making a block reports an error for its length alone (20_memory.md R52). -/
theorem makeBlock_configError {s : State} {name : String} {ro : Bool} {len : Nat} {init : List Host.Cell}
    {e : ConfigError} (h : (makeBlock s name ro len init).reply = .configError e) :
    s.life = .poweredOff ∧ (e = .invalidBlockLength len ∧ blockLengthOk len = false) ∧
      (makeBlock s name ro len init).state = s.failAssembly := by
  rw [makeBlock_eq] at h ⊢
  split at h
  · next hoff =>
    split at h
    · cases h
    · next hlen =>
      cases h
      simp [hoff, hlen]
  · cases h

/-- `add_device` reports an error for a reversed range, or for one that meets a mapping (20_memory.md R43). -/
theorem addDevice_configError {s : State} {dev : Nat} {low high : Addr} {e : ConfigError}
    (h : (addDevice s dev low high).reply = .configError e) :
    s.life = .poweredOff ∧
      (e = .invalidRange low high ∧ high < low ∨
        ∃ m, m ∈ s.mappings ∧ m.intersects low high = true ∧ e = .overlap (s.deviceName m)) ∧
      (addDevice s dev low high).state = s.failAssembly := by
  rw [addDevice_eq] at h ⊢
  split at h
  · next hoff =>
    rw [if_pos hoff]
    refine ⟨hoff.1, ?_⟩
    split at h
    · next hrange =>
      rw [if_pos hrange]
      cases hmeet : s.mappings.find? (·.intersects low high) with
      | none => rw [hmeet] at h; cases h
      | some m =>
        rw [hmeet] at h
        cases h
        have hm : m.intersects low high = true := List.find?_some (p := fun k : Mapping => k.intersects low high) hmeet
        exact ⟨.inr ⟨m, List.mem_of_find?_eq_some hmeet, hm, rfl⟩, rfl⟩
    · next hrange =>
      rw [if_neg hrange]
      cases h
      exact ⟨.inl ⟨rfl, BitVec.not_le.1 hrange⟩, rfl⟩
  · cases h

/-- The commands that report a configuration error are the two that R155 names; of the state they change the record that
assembly failed alone (60_exceptions.md R155). -/
theorem runCommand_configError {c : HostCommand} {s : State} {e : ConfigError}
    (h : (runCommand c s).reply = .configError e) :
    s.life = .poweredOff ∧
      ((∃ name ro len init, c = .makeBlock name ro len init ∧ e = .invalidBlockLength len ∧ blockLengthOk len = false) ∨
        (∃ dev low high, c = .addDevice dev low high ∧
          (e = .invalidRange low high ∧ high < low ∨
            ∃ m, m ∈ s.mappings ∧ m.intersects low high = true ∧ e = .overlap (s.deviceName m)))) ∧
      (runCommand c s).state = s.failAssembly := by
  cases c with
  | makeBlock name ro len init =>
    obtain ⟨hoff, hcause, hstate⟩ := makeBlock_configError h
    exact ⟨hoff, .inl ⟨name, ro, len, init, rfl, hcause⟩, hstate⟩
  | addDevice dev low high =>
    obtain ⟨hoff, hcause, hstate⟩ := addDevice_configError h
    exact ⟨hoff, .inr ⟨dev, low, high, rfl, hcause⟩, hstate⟩
  | makeStub name => exact absurd h (makeDevice_reply_ne_configError s _ e)
  | makeExternal name id st => exact absurd h (makeDevice_reply_ne_configError s _ e)
  | powerOn => exact absurd h (powerOn_reply_ne_configError s e)
  | reset => exact absurd h (softReset_reply_ne_configError s e)
  | step => exact absurd h (stepCommand_reply_ne_configError s e)

/-! ### After a failed assembly -/

/-- The invariant of a system that failed assembly: it is without power, and the failure is recorded (20_memory.md R66,
log entry 14). -/
def State.FailedOff (s : State) : Prop := s.life = .poweredOff ∧ s.assemblyFailed = true

/-- A failed system accepts none of the commands that need or give power. -/
theorem State.FailedOff.not_accepted {s : State} (h : s.FailedOff) {c : HostCommand}
    (hc : c = .powerOn ∨ c = .reset ∨ c = .step) : c.accepted s = false := by
  obtain ⟨hoff, hfailed⟩ := h
  rcases hc with rfl | rfl | rfl <;>
    simp [HostCommand.accepted, HostCommand.acceptedIn, Life.accepts, hoff, hfailed]

theorem AssemblyStep.failedOff {s t : State} (h : AssemblyStep s t) (hs : s.FailedOff) : t.FailedOff := by
  cases h with
  | refused => exact hs
  | failed off => exact ⟨off, rfl⟩
  | device => exact hs
  | mapping => exact hs

/-- No command clears the record or gives power: an assembly command does neither, and the others are refused. -/
theorem runCommand_failedOff {s : State} (hs : s.FailedOff) (c : HostCommand) : (runCommand c s).state.FailedOff := by
  rcases runCommand_assemblyStep c s with hc | h
  · rw [runCommand_refused (hs.not_accepted hc)]
    exact hs
  · exact h.failedOff hs

theorem runCommands_failedOff {s : State} (hs : s.FailedOff) (cs : List HostCommand) : (runCommands cs s).FailedOff := by
  induction cs generalizing s with
  | nil => exact hs
  | cons c cs ih => exact ih (runCommand_failedOff hs c)

/-- Settles O50: the error leaves a failed system without power, an invariant of every command, and `power_on` is not
accepted there. -/
theorem failedAssemblyIsNeverPoweredOn : Obligations.FailedAssemblyIsNeverPoweredOn := by
  unfold Obligations.FailedAssemblyIsNeverPoweredOn
  intro c s e h
  obtain ⟨hoff, hcause, hstate⟩ := runCommand_configError h
  rw [hstate]
  refine ⟨hoff, hcause, rfl, rfl, fun cs => ?_⟩
  have hstart : s.failAssembly.FailedOff := ⟨hoff, rfl⟩
  have hfailed := runCommands_failedOff hstart cs
  rw [runCommand_refused (hfailed.not_accepted (.inl rfl))]
  exact ⟨hfailed.1, rfl⟩

end Sys2Proof.Machine
end

section
/-! SUPPORT. A zeroing write of `power_on` or `reset` that a read-only block refuses (60_exceptions.md R153, R160; O37). -/

namespace Sys2Proof.Machine

/-! ### The refused write -/

/-- A bus write into a read-only block raises, and leaves all but the model's own trace (20_memory.md R51). -/
theorem memWrite_of_readOnly {s : State} {a : Addr} (op : Option Byte) (v : Byte) (h : s.readOnlyAt a = true) :
    ∃ n, memWrite op s a v = .raised (.deviceMisuse n a v op) (s.note (.writeFatal a v)) := by
  obtain ⟨i, n, len, cells, off, hl⟩ := block_of_readOnlyAt h
  exact ⟨n, by simp [memWrite, hl]⟩

/-- The zeroing writes end at the first that raises. -/
theorem zeroAll_of_raised {s t : State} {a : Addr} {f : Fault} (h : memWrite none s a 0x00#8 = .raised f t)
    (as : List Addr) : zeroAll s (a :: as) = .raised f t := by
  rw [zeroAll_cons, h]

/-- After one that completes, the others follow. -/
theorem zeroAll_of_done {s t : State} {a : Addr} (h : memWrite none s a 0x00#8 = .done t) (as : List Addr) :
    zeroAll s (a :: as) = zeroAll t as := by
  rw [zeroAll_cons, h]

/-- Zeroing writes that raise keep the frame of a command, and PC. -/
theorem zeroAll_raised_frame {as : List Addr} {s t : State} {f : Fault} (h : zeroAll s as = .raised f t) :
    CmdFrame s t ∧ t.pc = s.pc := by
  rcases zeroAll_frame as s with ⟨u, hu, -⟩ | ⟨n, a, v, u, hu, hframe, hpc⟩ <;> rw [h] at hu <;> cases hu
  exact ⟨hframe, hpc⟩

theorem CmdFrame.sameRegs {s t : State} (h : CmdFrame s t) : SameRegs s t
  | .a => h.a
  | .x => h.x
  | .y => h.y

/-! ### The halt -/

/-- `power_on` halts where its zeroing writes raise: PC is not loaded, the other registers have their power-on values
(70_reset_and_hazards.md R180). -/
theorem powerOn_of_raised {s t : State} {f : Fault} (hl : s.life = .poweredOff) (ha : s.assemblyFailed = false)
    (h : zeroAll (powerOnRegisters s) Config.powerOnZero = .raised f t) :
    powerOn s = commandResult s (t.halt f) (.fault f) ∧ t.pc = s.pc ∧ SameRegs (powerOnRegisters s) t ∧
      t.p = 0x34#8 ∧ t.sp = 0xFD#8 ∧ t.cyc = 0 := by
  obtain ⟨hframe, hpc⟩ := zeroAll_raised_frame h
  refine ⟨?_, hpc, hframe.sameRegs, hframe.p, hframe.sp, hframe.cyc⟩
  rw [powerOn, if_pos ⟨hl, ha⟩, h]
  rfl

/-- `reset` halts where its zeroing write raises (70_reset_and_hazards.md R181). -/
theorem softReset_of_raised {s t : State} {f : Fault} (hl : s.life.accepts = true)
    (h : memWrite none (resetRegisters s) Config.resetZero 0x00#8 = .raised f t) :
    softReset s = commandResult s (t.halt f) (.fault f) := by
  rw [softReset, if_pos hl, zeroAll_of_raised h]
  rfl

theorem resetRegisters_sameFlagsBut_i (s : State) : SameFlagsBut [.i] s (resetRegisters s) := fun _ hf =>
  (setFlag_flag_of_ne _ true (List.ne_of_not_mem_cons hf)).trans (setSp_flag s _ _)

/-! ### The statement -/

/-- Settles O37: the refused write ends the zeroing, and the halt keeps what stood before it. -/
theorem zeroingReadOnlyHaltsBeforeTheVector : Obligations.ZeroingReadOnlyHaltsBeforeTheVector := by
  unfold Obligations.ZeroingReadOnlyHaltsBeforeTheVector
  refine fun s hs => ⟨fun hl ha h17 => ?_, fun hl ha h17 h15 => ?_, fun hl h15 => ?_⟩
  · obtain ⟨n, hw⟩ := memWrite_of_readOnly (s := powerOnRegisters s) none 0x00#8 h17
    obtain ⟨hrun, hpc, hregs, hp, hsp, hcyc⟩ := powerOn_of_raised hl ha (zeroAll_of_raised hw _)
    exact ⟨n, _, hrun, rfl, hpc, hregs, hp, hsp, hcyc, .of_bytes (fun _ => rfl) fun _ => rfl, rfl⟩
  · obtain ⟨u, hu⟩ := memWrite_done_of_not_readOnly (s := powerOnRegisters s) none 0x00#8 h17
    obtain ⟨n, hw⟩ := memWrite_of_readOnly none 0x00#8 ((memWrite_readOnlyAt hu 0x4015#16).trans h15)
    obtain ⟨hrun, hpc, hregs, hp, hsp, hcyc⟩ :=
      powerOn_of_raised hl ha ((zeroAll_of_done hu _).trans (zeroAll_of_raised hw _))
    have hzeroed : MemoryZeroed [0x4017#16] s u :=
      zeroAll_memory (s := powerOnRegisters s) hs ((zeroAll_single _ _).trans hu)
    exact ⟨n, _, hrun, rfl, hpc, hregs, hp, hsp, hcyc, hzeroed.same (fun _ => rfl) fun _ => rfl,
      congrArg _ (memWrite_frame hu).trace⟩
  · obtain ⟨n, hw⟩ := memWrite_of_readOnly (s := resetRegisters s) none 0x00#8 h15
    exact ⟨n, _, softReset_of_raised hl hw, rfl, rfl, fun q => by cases q <;> rfl, rfl, setFlag_flag_self _ .i true,
      resetRegisters_sameFlagsBut_i s, rfl, .of_bytes (fun _ => rfl) fun _ => rfl, rfl⟩

end Sys2Proof.Machine
end

section
/-! SUPPORT. A step completes or faults, and each command moves LIFE as the lifecycle table says (70_reset_and_hazards.md R182, R191; O9, O33). -/

namespace Sys2Proof.Machine

/-! ### LIFE after a command that is accepted -/

/-- The fetch runs with LIFE Running, and an instruction leaves LIFE or halts. -/
theorem step_life {s t : State} (h : step s = .next t) : t.life = .running ∨ ∃ f, t.life = .haltedOnFault f := by
  rcases (step_cases h).2 with ⟨-, rfl⟩ | ⟨n, i, -, he, -⟩
  · exact .inr ⟨_, rfl⟩
  · have hrunning : (fetchBytes n (s.setLife .running)).1.life = .running := (fetchBytes_frame _ n).life
    exact hrunning ▸ (execFrame_of_next he).life

/-- Settles O9: an accepted step has a next state, and its LIFE is one of the two. -/
theorem acceptedStepCompletesOrFaults : Obligations.AcceptedStepCompletesOrFaults := by
  unfold Obligations.AcceptedStepCompletesOrFaults
  intro s ha
  obtain ⟨t, ht⟩ := step_next ha
  exact ⟨t, ht, step_life ht⟩

theorem AssemblyStep.life_eq {s t : State} (h : AssemblyStep s t) : t.life = s.life := by cases h <;> rfl

theorem powerOn_life {s : State} (hl : s.life = .poweredOff) (ha : s.assemblyFailed = false) :
    (powerOn s).state.life = .poweredOn ∨
      ∃ n a v, (powerOn s).state.life = .haltedOnFault (.deviceMisuse n a v none) := by
  rcases powerOn_cases s hl ha with ⟨t, h, -, hlife⟩ | ⟨n, a, v, t, h, -, hlife, -⟩ <;> rw [h]
  · exact .inl hlife
  · exact .inr ⟨n, a, v, hlife⟩

theorem softReset_life {s : State} (ha : s.life.accepts = true) :
    (softReset s).state.life = s.life ∨
      ∃ n a v, (softReset s).state.life = .haltedOnFault (.deviceMisuse n a v none) := by
  rcases softReset_cases s ha with ⟨t, h, -, hlife⟩ | ⟨n, a, v, t, h, -, hlife, -⟩ <;> rw [h]
  · exact .inl hlife
  · exact .inr ⟨n, a, v, hlife⟩

/-! ### An accepted command is not reported as refused -/

theorem finishCommand_reply_ne_refused (s : State) (e : Effected) : (finishCommand s e).reply ≠ .refused := by
  cases e <;> nofun

theorem Life.reply_ne_refused (l : Life) : l.reply ≠ .refused := by cases l <;> nofun

theorem makeDevice_reply_ne_refused {s : State} (hoff : s.life = .poweredOff) (d : Device) :
    (makeDevice s d).reply ≠ .refused := by
  rw [makeDevice_eq, if_pos hoff]
  nofun

theorem makeBlock_reply_ne_refused {s : State} (hoff : s.life = .poweredOff) (name : String) (ro : Bool) (len : Nat)
    (init : List Host.Cell) : (makeBlock s name ro len init).reply ≠ .refused := by
  rw [makeBlock_eq, if_pos hoff]
  split <;> nofun

theorem addDevice_reply_ne_refused {s : State} {dev : Nat} (hoff : s.life = .poweredOff) (hdev : dev < s.devices.length)
    (low high : Addr) : (addDevice s dev low high).reply ≠ .refused := by
  rw [addDevice_eq, if_pos ⟨hoff, hdev⟩]
  split
  · split <;> nofun
  · nofun

theorem stepCommand_of_accepts {s : State} (ha : s.life.accepts = true) :
    ∃ t, step s = .next t ∧ stepCommand s = commandResult s t t.life.reply := by
  rcases stepCommand_cases s with ⟨-, h⟩ | ⟨hn, -⟩
  · exact h
  · rw [ha] at hn
    cases hn

/-- Where the table accepts a command, and a device to be registered exists, the report is another than Refused. -/
theorem runCommand_reply_ne_refused {c : HostCommand} {s : State} (h : c.accepted s = true)
    (hdev : ∀ dev low high, c = .addDevice dev low high → dev < s.devices.length) :
    (runCommand c s).reply ≠ .refused := by
  simp only [HostCommand.accepted, HostCommand.acceptedIn] at h
  cases c with
  | makeBlock name ro len init => exact makeBlock_reply_ne_refused (by simpa using h) name ro len init
  | makeStub name => exact makeDevice_reply_ne_refused (by simpa using h) _
  | makeExternal name id st => exact makeDevice_reply_ne_refused (by simpa using h) _
  | addDevice dev low high => exact addDevice_reply_ne_refused (by simpa using h) (hdev dev low high rfl) low high
  | powerOn =>
    rw [runCommand, powerOn, if_pos (by simpa using h)]
    exact finishCommand_reply_ne_refused s _
  | reset =>
    rw [runCommand, softReset, if_pos (by simpa using h)]
    exact finishCommand_reply_ne_refused s _
  | step =>
    obtain ⟨t, -, hrun⟩ := stepCommand_of_accepts (s := s) (by simpa using h)
    rw [runCommand, hrun]
    exact t.life.reply_ne_refused

/-! ### The table -/

/-- Settles O33: a command not accepted changes nothing, one accepted is not refused, and each moves LIFE as its row of the
table says. -/
theorem lifecycleFollowsTheTable : Obligations.LifecycleFollowsTheTable := by
  unfold Obligations.LifecycleFollowsTheTable
  intro c s hdev
  cases hacc : c.accepted s with
  | false =>
    rw [runCommand_refused hacc]
    exact ⟨iff_of_true rfl rfl, fun _ => rfl, nofun⟩
  | true =>
    refine ⟨iff_of_false (runCommand_reply_ne_refused hacc hdev) nofun, nofun, fun _ => ?_⟩
    simp only [HostCommand.accepted, HostCommand.acceptedIn] at hacc
    cases c with
    | makeBlock name ro len init => exact (makeBlock_assemblyStep s name ro len init).life_eq.trans (by simpa using hacc)
    | makeStub name => exact (makeDevice_assemblyStep s _).life_eq.trans (by simpa using hacc)
    | makeExternal name id st => exact (makeDevice_assemblyStep s _).life_eq.trans (by simpa using hacc)
    | addDevice dev low high => exact (addDevice_assemblyStep s dev low high).life_eq.trans (by simpa using hacc)
    | powerOn =>
      obtain ⟨hoff, hassembled⟩ : s.life = .poweredOff ∧ s.assemblyFailed = false := by simpa using hacc
      exact powerOn_life hoff hassembled
    | reset => exact softReset_life (by simpa using hacc)
    | step =>
      obtain ⟨t, ht, hrun⟩ := stepCommand_of_accepts (s := s) (by simpa using hacc)
      rw [runCommand, hrun]
      exact step_life ht

end Sys2Proof.Machine
end

section
/-! SUPPORT. What `power_on` and `reset` leave where no zeroing write faults (70_reset_and_hazards.md R180, R181, 10_state.md R22; O35, O36): both zero addresses and then load PC from the vector. -/

namespace Sys2Proof.Machine

/-! ### Zeroing writes that complete -/

/-- Zeroing writes complete where the first does and then the others do. -/
theorem zeroAll_cons_done {s t : State} {a : Addr} {as : List Addr} (h : zeroAll s (a :: as) = .done t) :
    ∃ u, memWrite none s a 0x00#8 = .done u ∧ zeroAll u as = .done t := by
  rw [zeroAll_cons] at h
  cases hw : memWrite none s a 0x00#8 with
  | done u => exact ⟨u, rfl, by rwa [hw] at h⟩
  | raised f u => rw [hw] at h; cases h

/-- They complete where no read-only block owns an address: none of them changes what owns the others. -/
theorem zeroAll_done_of_not_readOnly {as : List Addr} {s : State} (h : ∀ a ∈ as, s.readOnlyAt a = false) :
    ∃ t, zeroAll s as = .done t := by
  induction as generalizing s with
  | nil => exact ⟨s, rfl⟩
  | cons a as ih =>
    obtain ⟨ha, has⟩ := List.forall_mem_cons.1 h
    obtain ⟨u, hu⟩ := memWrite_done_of_not_readOnly none 0x00#8 ha
    rw [zeroAll_of_done hu]
    exact ih fun b hb => (memWrite_readOnlyAt hu b).trans (has b hb)

theorem zeroAll_done_frame {as : List Addr} {s t : State} (h : zeroAll s as = .done t) :
    CmdFrame s t ∧ t.life = s.life := by
  rcases zeroAll_frame as s with ⟨u, hu, hframe, hlife, -⟩ | ⟨n, a, v, u, hu, -⟩ <;> rw [h] at hu <;> cases hu
  exact ⟨hframe, hlife⟩

/-- The bus transactions of completed zeroing writes, newest first. -/
theorem zeroAll_done_trace {as : List Addr} {s t : State} (h : zeroAll s as = .done t) :
    t.trace = (as.map (BusEvent.write · 0x00#8)).reverse ++ s.trace := by
  induction as generalizing s with
  | nil => cases h; rfl
  | cons a as ih =>
    obtain ⟨u, hu, hrest⟩ := zeroAll_cons_done h
    rw [ih hrest, (memWrite_frame hu).trace]
    simp

/-- Where the addresses reach no memory byte the memory stays, in any state. -/
theorem zeroAll_done_sameMemory {as : List Addr} {s t : State} (h : zeroAll s as = .done t)
    (hc : ∀ a ∈ as, s.cellOf a = none) : SameMemory s t := by
  induction as generalizing s with
  | nil => cases h; exact .of_bytes (fun _ => rfl) fun _ => rfl
  | cons a as ih =>
    obtain ⟨ha, has⟩ := List.forall_mem_cons.1 hc
    obtain ⟨u, hu, hrest⟩ := zeroAll_cons_done h
    have hcell := (memWrite_frame hu).cellOf
    obtain ⟨hcells, -, hbytes⟩ := ih hrest fun b hb => (hcell b).trans (has b hb)
    exact .of_bytes (fun b => (hcells b).trans (hcell b)) fun c =>
      (hbytes c).trans (memWrite_byteAt_of_no_cell hu ha c)

/-- Zeroing one address that reaches a memory byte writes 0x00 there and nowhere else. -/
theorem MemoryZeroed.memoryWritten {a : Addr} {c : Nat × Nat} {s t : State} (h : MemoryZeroed [a] s t)
    (hc : s.cellOf a = some c) : MemoryWritten c 0x00#8 s t := by
  obtain ⟨hcells, -, hbytes, hzero, hkeep⟩ := h
  have hother : ∀ d, d ≠ c → ∀ b ∈ [a], s.cellOf b ≠ some d := by
    simp only [List.mem_singleton, forall_eq, hc]
    exact fun d hd e => hd (Option.some.inj e).symm
  refine ⟨hcells, fun b hb => hzero b a c List.mem_cons_self hc hb, fun b hb => hkeep b fun e d he hd hbd => ?_,
    fun d hd => hbytes d (hother d hd)⟩
  exact hother d (fun hdc => hb (hdc ▸ hbd)) e he hd

/-! ### Zeroing and then loading PC -/

theorem CmdFrame.trans {s t u : State} (h : CmdFrame s t) (h' : CmdFrame t u) : CmdFrame s u where
  a := h'.a.trans h.a
  x := h'.x.trans h.x
  y := h'.y.trans h.y
  sp := h'.sp.trans h.sp
  p := h'.p.trans h.p
  cyc := h'.cyc.trans h.cyc
  mappings := h'.mappings.trans h.mappings
  assemblyFailed := h'.assemblyFailed.trans h.assemblyFailed
  len := h'.len.trans h.len
  wf hs := h'.wf (h.wf hs)

/-- From `s` to `t` the addresses `as` were zeroed and PC was loaded from the vector, whose bytes read as `lo` and `hi`. -/
structure Restarted (as : List Addr) (s : State) (lo hi : Byte) (t : State) : Prop where
  frame : CmdFrame s t
  life : t.life = s.life
  pc : t.pc.toNat = hi.toNat * 256 + lo.toNat
  peekLo : ∀ b, t.peek 0xFFFC#16 = some b → lo = b
  peekHi : ∀ b, t.peek 0xFFFD#16 = some b → hi = b
  same : (∀ a ∈ as, s.cellOf a = none) → SameMemory s t
  zeroed : s.wf = true → MemoryZeroed as s t
  trace : t.trace =
    .read 0xFFFD#16 hi :: .read 0xFFFC#16 lo :: ((as.map (BusEvent.write · 0x00#8)).reverse ++ s.trace)

/-- Where no read-only block owns one of the addresses, both are done; the vector's reads leave the memory. -/
theorem restarted_of_not_readOnly {as : List Addr} {s : State} (h : ∀ a ∈ as, s.readOnlyAt a = false) :
    ∃ u lo hi, zeroAll s as = .done u ∧ Restarted as s lo hi (loadVector u) := by
  obtain ⟨u, hu⟩ := zeroAll_done_of_not_readOnly h
  obtain ⟨hframe, hlife⟩ := zeroAll_done_frame hu
  obtain ⟨hframe', hlife'⟩ := loadVector_frame u
  obtain ⟨lo, hi, hpc, hlo, hhi, htrace, hcells, hbytes⟩ := loadVector_reads u
  refine ⟨u, lo, hi, hu, ⟨hframe.trans hframe', hlife'.trans hlife, hpc, hlo, hhi, fun hc => ?_, fun hs => ?_, ?_⟩⟩
  · obtain ⟨hc', -, hb'⟩ := zeroAll_done_sameMemory hu hc
    exact .of_bytes (fun a => (hcells a).trans (hc' a)) fun c => (hbytes c).trans (hb' c)
  · exact (zeroAll_memory hs hu).same hcells hbytes
  · rw [htrace, zeroAll_done_trace hu]

/-! ### The statements -/

/-- Settles O35: from the register values of power-on, both addresses are zeroed and PC is loaded, and LIFE becomes
PoweredOn. -/
theorem powerOnLeavesResetValues : Obligations.PowerOnLeavesResetValues := by
  unfold Obligations.PowerOnLeavesResetValues
  intro s hoff hassembled h17 h15
  obtain ⟨u, lo, hi, hu, h⟩ := restarted_of_not_readOnly (as := Config.powerOnZero) (s := powerOnRegisters s)
    (List.forall_mem_cons.2 ⟨h17, List.forall_mem_singleton.2 h15⟩)
  have hrun : powerOn s = commandResult s ((loadVector u).setLife .poweredOn) .ok := by
    rw [powerOn, if_pos ⟨hoff, hassembled⟩, hu]
    rfl
  rw [hrun]
  exact ⟨_, lo, hi, rfl, rfl, h.frame.sameRegs, h.frame.p, h.frame.sp, h.frame.cyc, rfl, h.frame.mappings, h.pc,
    h.peekLo, h.peekHi, fun hc17 hc15 => h.same (List.forall_mem_cons.2 ⟨hc17, List.forall_mem_singleton.2 hc15⟩), h.zeroed, h.trace⟩

/-- Settles O36: from the register values of reset, the one address is zeroed and PC is loaded. -/
theorem softResetLeavesResetValues : Obligations.SoftResetLeavesResetValues := by
  unfold Obligations.SoftResetLeavesResetValues
  intro s ha h15
  obtain ⟨u, lo, hi, hu, h⟩ := restarted_of_not_readOnly (as := [Config.resetZero]) (s := resetRegisters s)
    (List.forall_mem_singleton.2 h15)
  have hrun : softReset s = commandResult s (loadVector u) .ok := by
    rw [softReset, if_pos ha, hu]
    rfl
  rw [hrun]
  refine ⟨_, lo, hi, rfl, rfl, h.frame.sameRegs, h.frame.sp, ?_, ?_, h.frame.cyc, h.life, h.frame.mappings, h.pc,
    h.peekLo, h.peekHi, fun hc => h.same (List.forall_mem_singleton.2 hc), fun c hs hc => (h.zeroed hs).memoryWritten hc, h.trace⟩
  · exact (flag_congr h.frame.p .i).trans (setFlag_flag_self _ .i true)
  · exact fun f hf => (flag_congr h.frame.p f).trans (resetRegisters_sameFlagsBut_i s f hf)

end Sys2Proof.Machine
end
